-- ==== Sys2Proof/Word.lean ====
section
/-!
DEFINITION. The widths of the block: the 32-bit register word and the 8-bit memory cell
(spec/00_scope.md R10), and the raw instruction fields of 4 and 12 bits (spec/30_encoding.md R90).
The mark UNVERIFIED stands for the 32-bit width, the spec's own decision D1 (log 2).
-/

namespace Sys2Proof

/-- A general register's content: 32 bits (R10, R20; decision D1, log 2). `BitVec`'s `+` and `-` are
the modulo 2^32 operators of R13. -/
abbrev Word := BitVec 32

/-- One memory cell, or one instruction byte: 8 bits, unsigned (R10, R50). -/
abbrev Byte := BitVec 8

/-- A raw four-bit field of an instruction: R1, R2, X2, B2 or the mask M1 (R83, R84). It is a
register index or a plain number, as each instruction's rule says. -/
abbrev Nibble := BitVec 4

/-- The 12-bit unsigned displacement D2 (R84, R91). -/
abbrev Disp := BitVec 12

end Sys2Proof
end

