-- ==== Sys2Proof/Config.lean ====
section
/-!
DEFINITION. What is fixed for one machine: the parameters of spec/00_scope.md R10 and the type of the
one parameter `OPMAP` (R11). The default map's values stand in Decode.lean, the constraints R11 puts
on a map in WellFormed.lean.
-/

namespace Sys2Proof

/-- The ten opcodes, in the order of R2. HALT is not one of them (spec/90_conflicts.md C1). -/
inductive Op where
  | lr | cr | ar | sr | la | bct | bc | st | l | c
  deriving DecidableEq, Repr

/-- `OPMAP`: a byte for each of the ten opcodes (R11; decision D4, log 1). -/
abbrev OpMap := Op → Byte

/-- `MEM_SIZE`: memory has the offsets 0 to 4095 (R10). -/
def memSize : Nat := 4096

/-- The largest displacement, which advances the instruction-address counter by its own value (R87). -/
def maxDisp : Nat := 4095

/-- BC is fatal when the instruction-address counter exceeds this value (R160). -/
def iaLimit : Nat := 4095

/-- What a memory cell that the image does not fill holds: 0 (spec/70_reset_and_hazards.md R232; log 33). -/
def unlistedByte : Byte := 0#8

end Sys2Proof
end

