-- ==== Sys2Proof/Syntax.lean ====
section
/-!
DEFINITION. The instructions, one constructor per row of spec/opcode_table.json, and the record that
decoding yields (spec/10_state.md R35). A field holds the raw bits of the instruction, "not register
contents unless explicitly dereferenced by a handler" (spec/30_encoding.md R84). No field value is
reserved (R93), so the types alone make every instruction well formed.
-/

namespace Sys2Proof

/-- The instructions of the block (R2). -/
inductive Instr where
  /-- LR R1,R2: load register (R130). -/
  | lr (r1 r2 : Nibble)
  /-- CR R1,R2: compare register (R135). -/
  | cr (r1 r2 : Nibble)
  /-- AR R1,R2: add register (R140). -/
  | ar (r1 r2 : Nibble)
  /-- SR R1,R2: subtract register (R145). -/
  | sr (r1 r2 : Nibble)
  /-- LA R1,D2(X2,B2): load address, which loads the displacement (R150). -/
  | la (r1 x2 b2 : Nibble) (d2 : Disp)
  /-- BCT R1,D2(X2,B2): branch on count (R155). -/
  | bct (r1 x2 b2 : Nibble) (d2 : Disp)
  /-- BC M1,D2(X2,B2): branch on condition; M1 is a mask, not a register (R160). -/
  | bc (m1 x2 b2 : Nibble) (d2 : Disp)
  /-- ST R1,D2(X2,B2): store, in three cases (R170). -/
  | st (r1 x2 b2 : Nibble) (d2 : Disp)
  /-- L R1,D2(X2,B2): load (R180). -/
  | l (r1 x2 b2 : Nibble) (d2 : Disp)
  /-- C R1,D2(X2,B2): compare with a memory word (R185). -/
  | c (r1 x2 b2 : Nibble) (d2 : Disp)
  /-- HALT: the halt form (R190). `ignored` is the low nibble of its opcode byte, which the record `I`
  keeps as part of `opcode` (R35) and which has no effect (R90; DESIGN CHOICE, safe, log 26). -/
  | halt (ignored : Nibble)
  deriving DecidableEq, Repr

/-- The three instruction formats (R35, R82 to R84). -/
inductive Format where
  | halt | rr | rx
  deriving DecidableEq, Repr

/-- What decoding yields: the record `I` of R35. Decoding is total (R94): a byte that is no OPMAP value
is decoded in full by its class all the same, and no handler will run for it (R92; log 27). -/
inductive Decoded where
  /-- An assigned opcode or a halt form. -/
  | instr (i : Instr)
  /-- An unassigned opcode byte with high nibble 1. -/
  | unassignedRR (opcode : Byte) (r1 r2 : Nibble)
  /-- An unassigned opcode byte with high nibble 2 to 15. -/
  | unassignedRX (opcode : Byte) (r1 x2 b2 : Nibble) (d2 : Disp)
  deriving DecidableEq, Repr

end Sys2Proof
end

