-- ==== Sys2Proof/WellFormed.lean ====
section
/-!
DEFINITION. What makes an opcode map, a decoded record and a memory image meaningful. An instruction
needs no check of its own: every combination of field values has a meaning (spec/30_encoding.md R93),
and the field types hold exactly those values.
-/

namespace Sys2Proof

/-- The opcodes whose handlers take two register fields, so that only the RR format fits (R11 (i)). -/
def rrOps : List Op := [.lr, .cr, .ar, .sr]

/-- The opcodes whose handlers take a displacement or an effective address, so that only the RX format
fits (R11 (ii)). -/
def rxOps : List Op := [.la, .bct, .bc, .st, .l, .c]

/-- The three constraints R11 puts on `OPMAP`: (i) the RR opcodes' bytes have high nibble 1, (ii) the RX
opcodes' bytes have high nibble 2 to 15, (iii) the ten bytes are distinct. -/
def OpMap.wf (om : OpMap) : Bool :=
  (rrOps.all fun m => (om m).toNat / 16 == 1) &&
  (rxOps.all fun m => decide (2 ≤ (om m).toNat / 16)) &&
  decide ((rrOps ++ rxOps).map om).Nodup

/-- An opcode byte is unassigned when the map gives it to no opcode (R92). -/
def OpMap.unassigned (om : OpMap) (op : Byte) : Bool :=
  (rrOps ++ rxOps).all fun m => om m != op

/-- A decoded record is well formed under a map when an unassigned one holds an unassigned byte of its
own class (R92). Every instruction is (R93). -/
def Decoded.wf (om : OpMap) : Decoded → Bool
  | .instr _ => true
  | .unassignedRR op _ _ => op.toNat / 16 == 1 && om.unassigned op
  | .unassignedRX op _ _ _ _ => decide (2 ≤ op.toNat / 16) && om.unassigned op

/-- A memory image fits when it has at most 4096 bytes (R7). -/
def imageFits (image : List Byte) : Bool := decide (image.length ≤ memSize)

end Sys2Proof
end

