-- ==== Sys2Proof/Decode.lean ====
section
/-!
DEFINITION. The decoder and the encoder of spec/30_encoding.md: the default opcode map (R88), the field
extraction (R83, R84), the effective address (R85), the advances of PC and IA (R86, R87), decoding as
R80 writes it, over any source of bytes, and the words of an instruction (R90).
-/

namespace Sys2Proof

/-- The default `OPMAP` (R88): the System/360 values. PRESUMED, unsafe (log 1): the spec itself takes
them from general knowledge (decision D4). -/
def defaultOpMap : OpMap
  | .lr => 0x18#8
  | .cr => 0x19#8
  | .ar => 0x1A#8
  | .sr => 0x1B#8
  | .la => 0x41#8
  | .bct => 0x46#8
  | .bc => 0x47#8
  | .st => 0x50#8
  | .l => 0x58#8
  | .c => 0x59#8

/-- `hi4(b)`: bits 7 to 4 of a byte (R13). -/
def hi4 (b : Byte) : Nibble := b.extractLsb' 4 4

/-- `lo4(b)`: bits 3 to 0 of a byte (R13). -/
def lo4 (b : Byte) : Nibble := b.extractLsb' 0 4

/-- A byte from its two nibbles, the high one first. -/
def byteOf (hi lo : Nibble) : Byte := hi ++ lo

/-- The displacement: byte 2's low nibble in the high bits, byte 3 in the low bits (R84). -/
def dispOf (b2 b3 : Byte) : Disp := lo4 b2 ++ b3

/-- The RX effective address: the plain sum of the raw fields, without wrap and without a register (R85). -/
def rxEa (x2 b2 : Nibble) (d2 : Disp) : Nat := x2.toNat + b2.toNat + d2.toNat

/-- An RX instruction advances the IA by its displacement if that is 4095, else by 4 (R87). -/
def rxIaAdvance (d2 : Disp) : Nat := if d2.toNat = maxDisp then maxDisp else 4

/-- The record of a byte of the RR class: dispatch is by exact match of the whole byte (R89, R113). -/
def recordRR (om : OpMap) (op : Byte) (r1 r2 : Nibble) : Decoded :=
  if op = om .lr then .instr (.lr r1 r2)
  else if op = om .cr then .instr (.cr r1 r2)
  else if op = om .ar then .instr (.ar r1 r2)
  else if op = om .sr then .instr (.sr r1 r2)
  else .unassignedRR op r1 r2

/-- The record of a byte of the RX class (R89, R113). -/
def recordRX (om : OpMap) (op : Byte) (r1 x2 b2 : Nibble) (d2 : Disp) : Decoded :=
  if op = om .la then .instr (.la r1 x2 b2 d2)
  else if op = om .bct then .instr (.bct r1 x2 b2 d2)
  else if op = om .bc then .instr (.bc r1 x2 b2 d2)
  else if op = om .st then .instr (.st r1 x2 b2 d2)
  else if op = om .l then .instr (.l r1 x2 b2 d2)
  else if op = om .c then .instr (.c r1 x2 b2 d2)
  else .unassignedRX op r1 x2 b2 d2

/-- The decode procedure of R80, without its state change, over any source of bytes: `fetch8 k` gives
the byte `k` places after the opcode byte, or the reason why it cannot. The format follows from the
opcode byte's high nibble alone (R94), and no byte beyond the instruction's length is read (R82). -/
def decodeFrom {ε : Type} (om : OpMap) (fetch8 : Nat → Except ε Byte) : Except ε Decoded := do
  let op ← fetch8 0
  if hi4 op = 0#4 then
    return .instr (.halt (lo4 op))
  else if hi4 op = 1#4 then
    let b1 ← fetch8 1
    return recordRR om op (hi4 b1) (lo4 b1)
  else
    let b1 ← fetch8 1
    let b2 ← fetch8 2
    let b3 ← fetch8 3
    return recordRX om op (hi4 b1) (lo4 b1) (hi4 b2) (dispOf b2 b3)

/-- Why a list of bytes does not decode. No encoding is illegal (R92): the one reason is that the list
ends inside the instruction. -/
inductive DecodeError where
  /-- The instruction's byte number `k` is missing. Raised by `decode` on a short list; safe: the
  machine's own fetch reports the offset instead (R200). -/
  | missingByte (k : Nat)
  deriving DecidableEq, Repr

/-- Decode the instruction at the head of a list of bytes: total, and rejecting by name. -/
def decode (om : OpMap) (bytes : List Byte) : Except DecodeError Decoded :=
  decodeFrom om fun k =>
    match bytes[k]? with
    | some b => .ok b
    | none => .error (.missingByte k)

/-- The two bytes of an RR instruction (R90). -/
def rrBytes (op : Byte) (r1 r2 : Nibble) : List Byte := [op, byteOf r1 r2]

/-- The four bytes of an RX instruction (R90). -/
def rxBytes (op : Byte) (r1 x2 b2 : Nibble) (d2 : Disp) : List Byte :=
  [op, byteOf r1 x2, byteOf b2 (d2.extractLsb' 8 4), d2.extractLsb' 0 8]

/-- The bytes of an instruction under an opcode map, the byte at the lowest address first (R90). -/
def encode (om : OpMap) : Instr → List Byte
  | .lr r1 r2 => rrBytes (om .lr) r1 r2
  | .cr r1 r2 => rrBytes (om .cr) r1 r2
  | .ar r1 r2 => rrBytes (om .ar) r1 r2
  | .sr r1 r2 => rrBytes (om .sr) r1 r2
  | .la r1 x2 b2 d2 => rxBytes (om .la) r1 x2 b2 d2
  | .bct r1 x2 b2 d2 => rxBytes (om .bct) r1 x2 b2 d2
  | .bc m1 x2 b2 d2 => rxBytes (om .bc) m1 x2 b2 d2
  | .st r1 x2 b2 d2 => rxBytes (om .st) r1 x2 b2 d2
  | .l r1 x2 b2 d2 => rxBytes (om .l) r1 x2 b2 d2
  | .c r1 x2 b2 d2 => rxBytes (om .c) r1 x2 b2 d2
  | .halt ignored => [byteOf 0#4 ignored]

/-- The bytes of a decoded record, the unassigned ones included (R92). -/
def encodeRecord (om : OpMap) : Decoded → List Byte
  | .instr i => encode om i
  | .unassignedRR op r1 r2 => rrBytes op r1 r2
  | .unassignedRX op r1 x2 b2 d2 => rxBytes op r1 x2 b2 d2

/-- The record's field `fmt` for an instruction (R35). -/
def Instr.format : Instr → Format
  | .lr _ _ => .rr
  | .cr _ _ => .rr
  | .ar _ _ => .rr
  | .sr _ _ => .rr
  | .la _ _ _ _ => .rx
  | .bct _ _ _ _ => .rx
  | .bc _ _ _ _ => .rx
  | .st _ _ _ _ => .rx
  | .l _ _ _ _ => .rx
  | .c _ _ _ _ => .rx
  | .halt _ => .halt

/-- The opcode whose handler runs for an instruction; HALT is none of the ten (R113, C1). -/
def Instr.op : Instr → Option Op
  | .lr _ _ => some .lr
  | .cr _ _ => some .cr
  | .ar _ _ => some .ar
  | .sr _ _ => some .sr
  | .la _ _ _ _ => some .la
  | .bct _ _ _ _ => some .bct
  | .bc _ _ _ _ => some .bc
  | .st _ _ _ _ => some .st
  | .l _ _ _ _ => some .l
  | .c _ _ _ _ => some .c
  | .halt _ => none

/-- The displacement of an instruction of the RX format, none for another (R84). -/
def Instr.disp : Instr → Option Disp
  | .lr _ _ => none
  | .cr _ _ => none
  | .ar _ _ => none
  | .sr _ _ => none
  | .la _ _ _ d2 => some d2
  | .bct _ _ _ d2 => some d2
  | .bc _ _ _ d2 => some d2
  | .st _ _ _ d2 => some d2
  | .l _ _ _ d2 => some d2
  | .c _ _ _ d2 => some d2
  | .halt _ => none

/-- The record's field `fmt` (R35). -/
def Decoded.format : Decoded → Format
  | .instr i => i.format
  | .unassignedRR _ _ _ => .rr
  | .unassignedRX _ _ _ _ _ => .rx

/-- The record's field `disp`, of an RX record only (R35). -/
def Decoded.disp : Decoded → Option Disp
  | .instr i => i.disp
  | .unassignedRR _ _ _ => none
  | .unassignedRX _ _ _ _ d2 => some d2

/-- The record's field `ea` (R35): the R2 field for RR (R83), the raw sum for RX (R85), none for the
halt form, which carries no operand fields (R82). -/
def Decoded.ea : Decoded → Option Nat
  | .instr (.lr _ r2) => some r2.toNat
  | .instr (.cr _ r2) => some r2.toNat
  | .instr (.ar _ r2) => some r2.toNat
  | .instr (.sr _ r2) => some r2.toNat
  | .instr (.la _ x2 b2 d2) => some (rxEa x2 b2 d2)
  | .instr (.bct _ x2 b2 d2) => some (rxEa x2 b2 d2)
  | .instr (.bc _ x2 b2 d2) => some (rxEa x2 b2 d2)
  | .instr (.st _ x2 b2 d2) => some (rxEa x2 b2 d2)
  | .instr (.l _ x2 b2 d2) => some (rxEa x2 b2 d2)
  | .instr (.c _ x2 b2 d2) => some (rxEa x2 b2 d2)
  | .instr (.halt _) => none
  | .unassignedRR _ _ r2 => some r2.toNat
  | .unassignedRX _ _ x2 b2 d2 => some (rxEa x2 b2 d2)

/-- The record's field `opcode`: the first byte of its encoding (R35, R90). -/
def Decoded.opcode (om : OpMap) (d : Decoded) : Byte := (encodeRecord om d).headD 0#8

/-- The length in bytes of each format, which is also the advance of the PC (R86). -/
def Format.length : Format → Nat
  | .halt => 1
  | .rr => 2
  | .rx => 4

/-- The length of a record's instruction (R86). -/
def Decoded.length (d : Decoded) : Nat := d.format.length

/-- The advance of the IA (R87): 4 or 4095 for RX, the records that have a displacement, 2 for RR, and
0 for the halt form (decision D13; UNVERIFIED, unsafe, log 13). -/
def Decoded.iaAdvance (d : Decoded) : Nat :=
  match d.disp with
  | some d2 => rxIaAdvance d2
  | none => if d.format = .rr then 2 else 0

/-- The bytes of a row of spec/opcode_table.json: the table reads an instruction as ONE big-endian word
of its length (R90), so the first byte is the word's most significant one (DEDUCED, safe, log 28). The
bytes after it, up to the longest instruction, are 0. -/
def tableBytes (nbits w : Nat) : List Byte :=
  ((List.range (nbits / 8)).map fun k => BitVec.ofNat 8 (w >>> (8 * (nbits / 8 - 1 - k)))) ++
    List.replicate (4 - nbits / 8) 0#8

/-- The instruction the decoder reads, under the default map, from an instruction whose bits are `w`;
none where no handler runs (an unassigned opcode) or the bytes end too soon. -/
def decodeTableWord (nbits w : Nat) : Option Instr :=
  match decode defaultOpMap (tableBytes nbits w) with
  | .ok (.instr i) => some i
  | .ok (.unassignedRR _ _ _) => none
  | .ok (.unassignedRX _ _ _ _ _) => none
  | .error _ => none

end Sys2Proof
end

