-- ==== Sys2Proof/Machine/State.lean ====
section
/-!
DEFINITION. The machine's state: every field that spec/10_state.md R37 lists, as plain data, and its
value after reset (spec/70_reset_and_hazards.md R230). The accessors and updates stand in Ops.lean and
Cache.lean.
-/

namespace Sys2Proof.Machine

/-- The reasons of a model fault (spec/60_exceptions.md R200, R201). A cycle that raises one answers a
next state whose run status records it (R203; log 21); `step` in that terminal status answers the
`fault` outcome with the same reason (log 20). -/
inductive Fault where
  /-- Raised by decode when the instruction's byte at offset `a` lies above 4095 (R200). Safe: the source
  gives no behaviour there, and nothing can be proved past it (decision D6, log 6). -/
  | fetchOutOfRange (a : Nat)
  /-- Raised by ST, L and C when their `n`-byte access at address `a` would touch an offset above 4095
  (R201). Safe, for the same reason (decision D7, log 7). -/
  | dataOutOfRange (a n : Nat)
  deriving DecidableEq, Repr

/-- The reasons of a refusal. No instruction of this block is refused: every arm of `exec` has its meaning. -/
inductive Refusal where
  /-- Raised by an arm of `exec` whose instruction has no meaning yet: no arm does. Safe. -/
  | notModelled (mnemonic : String)
  deriving DecidableEq, Repr

/-- The condition code: its three values (R26). The value 3 never occurs. -/
inductive CondCode where
  /-- 0: equal, or zero. -/
  | equal
  /-- 1: less, or negative. -/
  | less
  /-- 2: greater, or positive. -/
  | greater
  deriving DecidableEq, Repr

/-- The run status (R31). All but `running` are terminal. -/
inductive RunStatus where
  | running
  | halted
  | fatalBC
  | fault (reason : Fault)
  deriving DecidableEq, Repr

/-- Memory as the list of its cells that do not read as 0, at rising addresses (`Memory.wf`, Ops.lean). -/
abbrev Memory := List Host.Cell

/-- One line of the cache: no data, only valid, tag and recency (R33). -/
structure Line where
  valid : Bool
  tag : Nat
  recency : Nat
  deriving DecidableEq, Repr

/-- The two banks of the cache, the ways of a set (R33). -/
inductive Bank where
  | bank0 | bank1
  deriving DecidableEq, Repr

/-- The cache state: `line[b][s]` for two banks of sixteen sets, and the access counter `acc` (R33). -/
structure Cache where
  bank0 : Vector Line 16
  bank1 : Vector Line 16
  acc : Nat
  deriving DecidableEq, Repr

/-- The tallies `exec[op]`, one for each of the ten opcodes (R30). -/
structure OpTally where
  lr : Nat
  cr : Nat
  ar : Nat
  sr : Nat
  la : Nat
  bct : Nat
  bc : Nat
  st : Nat
  l : Nat
  c : Nat
  deriving DecidableEq, Repr

/-- The tallies: "observational only, never read by control flow" (R30). Unbounded (decision D12, log 12). -/
structure Tallies where
  fetch : Nat
  exec : OpTally
  takenBct : Nat
  takenBc : Nat
  memReads : Nat
  memWrites : Nat
  cacheHits : Nat
  cacheMisses : Nat
  deriving DecidableEq, Repr

/-- An event to the external reporter (spec/00_scope.md R8 (d), (e)). -/
inductive Event where
  /-- After a cycle that ends in `running` (spec/40_run_loop.md R118). -/
  | trace (ia pc : Nat) (cc : CondCode) (regs : Vector Word 16)
  /-- On the fatal path of BC (spec/42_rx_address_branch.md R161). -/
  | dump (regs : Vector Word 16) (ia : Nat) (cc : CondCode)
  deriving DecidableEq, Repr

/-- The complete architectural state (R37), and the events emitted so far. -/
structure State where
  /-- `x[0]` to `x[15]` (R20). -/
  regs : Vector Word 16
  /-- The program counter, a natural number that does not wrap (R24). -/
  pc : Nat
  /-- The instruction-address counter, separate from the PC (R27). -/
  ia : Nat
  /-- The condition code (R26). -/
  cc : CondCode
  /-- The halt flag (R29). -/
  halted : Bool
  /-- The run status (R31). -/
  status : RunStatus
  /-- The 4096 cells (R36, R50). -/
  mem : Memory
  /-- The cache lines and `acc` (R33). -/
  cache : Cache
  /-- The tallies (R30). -/
  tally : Tallies
  /-- The decoded-instruction record `I` (R35), none before the first decode (R37; log 23). -/
  record : Option Decoded
  /-- The MODEL's own field: the Trace and Dump events emitted so far, oldest first (log 22). -/
  events : List Event
  deriving DecidableEq, Repr

/-- A line after reset: invalid, with tag 0 and recency 0 (R33; decision D9, log 9). -/
def Line.reset : Line := { valid := false, tag := 0, recency := 0 }

/-- The cache after reset (R33; decision D9, log 9). -/
def Cache.reset : Cache :=
  { bank0 := Vector.replicate 16 Line.reset, bank1 := Vector.replicate 16 Line.reset, acc := 0 }

/-- The opcode tallies after reset (R30; decision D9, log 9). -/
def OpTally.zero : OpTally :=
  { lr := 0, cr := 0, ar := 0, sr := 0, la := 0, bct := 0, bc := 0, st := 0, l := 0, c := 0 }

/-- The tallies after reset (R30; decision D9, log 9). -/
def Tallies.zero : Tallies :=
  { fetch := 0, exec := OpTally.zero, takenBct := 0, takenBc := 0, memReads := 0, memWrites := 0,
    cacheHits := 0, cacheMisses := 0 }

/-- The machine right after reset, before an image is placed (R37, R230): memory all zero (R232), every
other value the spec's decisions D9 and D10 (UNVERIFIED, unsafe, log 9 and log 10). -/
def State.reset : State :=
  { regs := Vector.replicate 16 0#32
    pc := 0
    ia := 0
    cc := .equal
    halted := false
    status := .running
    mem := []
    cache := Cache.reset
    tally := Tallies.zero
    record := none
    events := [] }

end Sys2Proof.Machine
end

