-- ==== Sys2Proof/Machine/Ops.lean ====
section
/-!
DEFINITION. The named operations over registers, memory and the run status that every meaning is made
of: the access primitives of spec/00_scope.md R14, byte order and range (spec/20_memory.md R52, R54),
the state change of decode (spec/30_encoding.md R80), dispatch's tally (spec/40_run_loop.md R114), the
branch effect, the end of a cycle (R110, R118), and the entries into the terminal statuses, the model
fault's among them (spec/60_exceptions.md R203). There is no return from any of them (R209).
-/

namespace Sys2Proof.Machine

/-! ### Memory as a list of cells -/

/-- The canonical form from address `lo` on: addresses strictly rising, each an offset of memory, and no
cell that an unlisted address already reads as. -/
def Memory.wfFrom (lo : Nat) : Memory → Bool
  | [] => true
  | (a, b) :: rest =>
    decide (lo ≤ a) && decide (a < memSize) && (b != unlistedByte) && Memory.wfFrom (a + 1) rest

/-- Memory is in its canonical form, so that equal memories are equal lists. -/
def Memory.wf (m : Memory) : Bool := Memory.wfFrom 0 m

/-- `M[a]` (R14): an unlisted address reads as 0, which R232 states of every cell not filled (log 33). -/
def Memory.read : Memory → Nat → Byte
  | [], _ => unlistedByte
  | (a, b) :: rest, q => if q = a then b else Memory.read rest q

/-- `M[q] <- v`, in canonical form: writing what an unlisted address reads as removes the cell. -/
def Memory.write : Memory → Nat → Byte → Memory
  | [], q, v => if v = unlistedByte then [] else [(q, v)]
  | (a, b) :: rest, q, v =>
    if q < a then (if v = unlistedByte then (a, b) :: rest else (q, v) :: (a, b) :: rest)
    else if q = a then (if v = unlistedByte then rest else (q, v) :: rest)
    else (a, b) :: Memory.write rest q v

/-- Bytes written at `a`, `a+1`, … in order. -/
def Memory.writeBytes : Memory → Nat → List Byte → Memory
  | m, _, [] => m
  | m, a, b :: bs => Memory.writeBytes (m.write a b) (a + 1) bs

/-! ### Byte order (R52): big-endian -/

/-- The four bytes of a word, most significant first (R52). -/
def wordBytes (w : Word) : List Byte :=
  [w.extractLsb' 24 8, w.extractLsb' 16 8, w.extractLsb' 8 8, w.extractLsb' 0 8]

/-- The word of four bytes, the first in bits 31 to 24 (R52). -/
def wordOfBytes (b0 b1 b2 b3 : Byte) : Word := b0 ++ b1 ++ b2 ++ b3

/-- `trunc_8(w)`: the low 8 bits of a word (R13). -/
def trunc8 (w : Word) : Byte := w.extractLsb' 0 8

/-- `zext_32(v)` of a displacement (R13). -/
def zext32 (d2 : Disp) : Word := d2.setWidth 32

/-! ### Register and memory access (R14) -/

/-- `x[i]`: no register is hard-wired (R21). -/
def State.reg (s : State) (r : Nibble) : Word := s.regs[r.toNat]'r.isLt

/-- `x[i] <- v` (R14). -/
def State.setReg (s : State) (r : Nibble) (v : Word) : State :=
  { s with regs := s.regs.set r.toNat v r.isLt }

/-- `cc <- v` (R14). -/
def State.setCc (s : State) (v : CondCode) : State := { s with cc := v }

/-- One cell of memory (R14). -/
def State.readByte (s : State) (a : Nat) : Byte := s.mem.read a

/-- `Fetch8(a)`: one instruction byte, straight from memory, never through the cache (R14, R80). -/
def State.fetch8 (s : State) (a : Nat) : Except Fault Byte :=
  if a < memSize then .ok (s.readByte a) else .error (.fetchOutOfRange a)

/-- The range rule of a data access of `n` bytes at `a` (R54); no alignment (R53, log 19). -/
def checkRange (a n : Nat) : Except Fault Unit :=
  if a + n ≤ memSize then .ok () else .error (.dataOutOfRange a n)

/-- The word `MemRead(a, 4)` reads: big-endian (R52). Its range is checked by `checkRange`. -/
def State.readWord (s : State) (a : Nat) : Word :=
  wordOfBytes (s.readByte a) (s.readByte (a + 1)) (s.readByte (a + 2)) (s.readByte (a + 3))

/-- `MemWrite(a, n, v)` for the bytes of `v`, most significant first (R14). Its range is checked by
`checkRange`. -/
def State.writeBytes (s : State) (a : Nat) (bytes : List Byte) : State :=
  { s with mem := s.mem.writeBytes a bytes }

/-! ### Tallies (R30) -/

/-- The tally `exec[m]` (R30). -/
def OpTally.get (t : OpTally) : Op → Nat
  | .lr => t.lr
  | .cr => t.cr
  | .ar => t.ar
  | .sr => t.sr
  | .la => t.la
  | .bct => t.bct
  | .bc => t.bc
  | .st => t.st
  | .l => t.l
  | .c => t.c

/-- `exec[m] += 1` (R114). -/
def OpTally.bump (t : OpTally) : Op → OpTally
  | .lr => { t with lr := t.lr + 1 }
  | .cr => { t with cr := t.cr + 1 }
  | .ar => { t with ar := t.ar + 1 }
  | .sr => { t with sr := t.sr + 1 }
  | .la => { t with la := t.la + 1 }
  | .bct => { t with bct := t.bct + 1 }
  | .bc => { t with bc := t.bc + 1 }
  | .st => { t with st := t.st + 1 }
  | .l => { t with l := t.l + 1 }
  | .c => { t with c := t.c + 1 }

/-- `tally.exec[m] += 1`, before the handler's first effect (R114; decision D14, log 14). -/
def State.countExec (s : State) (m : Op) : State :=
  { s with tally := { s.tally with exec := s.tally.exec.bump m } }

/-- `tally.mem_reads += 1` (R180, R185). -/
def State.countRead (s : State) : State :=
  { s with tally := { s.tally with memReads := s.tally.memReads + 1 } }

/-- `tally.mem_writes += 1` (R170). -/
def State.countWrite (s : State) : State :=
  { s with tally := { s.tally with memWrites := s.tally.memWrites + 1 } }

/-- `tally.taken[BCT] += 1` (R155). -/
def State.countTakenBct (s : State) : State :=
  { s with tally := { s.tally with takenBct := s.tally.takenBct + 1 } }

/-- `tally.taken[BC] += 1` (R160). -/
def State.countTakenBc (s : State) : State :=
  { s with tally := { s.tally with takenBc := s.tally.takenBc + 1 } }

/-! ### The parts of a cycle -/

/-- The state change of decode (R80): the record is written, the fetch tally counts, PC and IA advance. -/
def State.decodeAdvance (s : State) (d : Decoded) : State :=
  { s with
    record := some d
    tally := { s.tally with fetch := s.tally.fetch + 1 }
    pc := s.pc + d.length
    ia := s.ia + d.iaAdvance }

/-- The branch effect: PC and IA become the target (R155, R160). -/
def State.branchTo (s : State) (target : Nat) : State := { s with pc := target, ia := target }

/-- The event of a cycle that ends in `running` (R118). -/
def State.traceEvent (s : State) : Event := .trace s.ia s.pc s.cc s.regs

/-- The event of BC's fatal path (R161). -/
def State.dumpEvent (s : State) : Event := .dump s.regs s.ia s.cc

/-- An event reaches the reporter; it changes no other state (R118). -/
def State.emit (s : State) (e : Event) : State := { s with events := s.events ++ [e] }

/-- The end of a cycle: if the status is still `running`, the trace event is emitted (R110, R118). -/
def State.endCycle (s : State) : State :=
  if s.status = .running then s.emit s.traceEvent else s

/-- Taking a model fault (R203, R111): in the state at the start of the cycle only the status changes.
There is no handler, vector, saved register or mode (R208), and nothing returns from it (R209). -/
def State.takeFault (s : State) (f : Fault) : State := { s with status := .fault f }

/-- The effect of HALT (R190). -/
def State.stopHalted (s : State) : State := { s with halted := true, status := .halted }

/-- The fatal path of BC (R160, R161): the dump is emitted and the status becomes terminal. Decode and
`exec[BC]` are kept (R204; decision D17, log 15). -/
def State.stopFatalBC (s : State) : State := { s.emit s.dumpEvent with status := .fatalBC }

/-- One cycle of a decoded instruction from the state `s` at the start of the cycle (R110): decode's state
change, then the handler, then the trace; a fault the handler raises undoes it all (R111; log 17). The
run loop performs it in `running` only, and fetches the instruction first (RunLoop.lean; log 24). -/
def runCycle (i : Instr) (handler : State → Except Fault State) (s : State) :
    Host.Outcome State Fault Refusal :=
  match handler (s.decodeAdvance (.instr i)) with
  | .ok t => .next t.endCycle
  | .error f => .next (s.takeFault f)

end Sys2Proof.Machine
end

