-- ==== Sys2Proof/Machine/Boot.lean ====
section
/-!
DEFINITION. The block's one input, the memory image (spec/00_scope.md R7): placed at offset 0 before the
first cycle (spec/70_reset_and_hazards.md R232, R234). Reading tokens is the external loader's (R233).
-/

namespace Sys2Proof.Machine

/-- The state with an image's bytes placed from offset 0 on (R232). -/
def State.withImage (s : State) (image : List Byte) : State := s.writeBytes 0 image

/-- Reset, then the image, the order of R234. An image of more than 4096 bytes never starts the block (R233). -/
def State.boot (image : List Byte) : Option State :=
  if imageFits image then some (State.reset.withImage image) else none

/-- The bytes of an instruction placed at the PC, for `withFetchWord`: bytes beyond offset 4095 are dropped,
since no such cell exists (log 28). -/
def State.placeAtPc (s : State) (bytes : List Byte) : State :=
  s.writeBytes s.pc (bytes.take (memSize - s.pc))

end Sys2Proof.Machine
end

