-- ==== Sys2Proof/Machine/Flags.lean ====
section
/-!
DEFINITION. The condition code: the three-way comparison and the sign test of spec/00_scope.md R15, and
the value BC masks (spec/42_rx_address_branch.md R160).
-/

namespace Sys2Proof.Machine

/-- `cmp3(a, b)` (R15): 0 if equal, 1 if less, 2 otherwise, both read as signed (decision D2;
UNVERIFIED, unsafe, log 3). -/
def cmp3 (a b : Word) : CondCode :=
  if a.toInt = b.toInt then .equal else if a.toInt < b.toInt then .less else .greater

/-- `sign3(w)` (R15): 0 if zero, 1 if negative, 2 otherwise (decision D2; UNVERIFIED, unsafe, log 3). -/
def sign3 (w : Word) : CondCode :=
  if w = 0#32 then .equal else if w.toInt < 0 then .less else .greater

/-- The value of the condition code, as BC ANDs it with the mask (R26, R160). -/
def CondCode.value : CondCode → Nibble
  | .equal => 0#4
  | .less => 1#4
  | .greater => 2#4

/-- BC's test: the mask ANDed with the value of the condition code is not zero (R160). -/
def bcTaken (m1 : Nibble) (cc : CondCode) : Bool := m1 &&& cc.value != 0#4

end Sys2Proof.Machine
end

