-- ==== Sys2Proof/Machine/Branches.lean ====
section
/-!
DEFINITION. Load address and the branches, LA, BCT and BC (spec/42_rx_address_branch.md). The branch
target is the raw effective address, never register contents (R163).
-/

namespace Sys2Proof.Machine

/-- LA's handler: the displacement, not the effective address (R150). -/
def handleLa (r1 _x2 _b2 : Nibble) (d2 : Disp) (s : State) : Except Fault State :=
  .ok (s.setReg r1 (zext32 d2))

/-- BCT's handler: the decremented register is tested, and no IA range is checked (R155). -/
def handleBct (r1 x2 b2 : Nibble) (d2 : Disp) (s : State) : Except Fault State :=
  let v := s.reg r1 - 1#32
  let u := s.setReg r1 v
  if v ≠ 0#32 then .ok (u.branchTo (rxEa x2 b2 d2)).countTakenBct else .ok u

/-- BC's handler: the IA, which already includes this BC's own advance, is checked before the mask (R160). -/
def handleBc (m1 x2 b2 : Nibble) (d2 : Disp) (s : State) : Except Fault State :=
  if s.ia > iaLimit then .ok s.stopFatalBC
  else if bcTaken m1 s.cc then .ok (s.branchTo (rxEa x2 b2 d2)).countTakenBc
  else .ok s

/-- LA (R150). -/
def execLa (r1 x2 b2 : Nibble) (d2 : Disp) (s : State) : Host.Outcome State Fault Refusal :=
  runCycle (.la r1 x2 b2 d2) (fun u => handleLa r1 x2 b2 d2 (u.countExec .la)) s

/-- BCT (R155). -/
def execBct (r1 x2 b2 : Nibble) (d2 : Disp) (s : State) : Host.Outcome State Fault Refusal :=
  runCycle (.bct r1 x2 b2 d2) (fun u => handleBct r1 x2 b2 d2 (u.countExec .bct)) s

/-- BC (R160, R161). -/
def execBc (m1 x2 b2 : Nibble) (d2 : Disp) (s : State) : Host.Outcome State Fault Refusal :=
  runCycle (.bc m1 x2 b2 d2) (fun u => handleBc m1 x2 b2 d2 (u.countExec .bc)) s

end Sys2Proof.Machine
end

