-- ==== Sys2Proof/Machine/Halt.lean ====
section
/-!
DEFINITION. HALT, the block's only system-class operation (spec/44_halt.md R190, R192).
-/

namespace Sys2Proof.Machine

/-- HALT's handler (R190). -/
def handleHalt (_ignored : Nibble) (s : State) : Except Fault State := .ok s.stopHalted

/-- HALT (R190): all sixteen bytes of the halt form (decision D5; UNVERIFIED, unsafe, log 5). It has no
tally of its own (R114; spec/90_conflicts.md C1). -/
def execHalt (ignored : Nibble) (s : State) : Host.Outcome State Fault Refusal :=
  runCycle (.halt ignored) (handleHalt ignored) s

end Sys2Proof.Machine
end

