-- ==== Sys2Proof/Machine/RegisterOps.lean ====
section
/-!
DEFINITION. The register-to-register instructions LR, CR, AR and SR (spec/41_rr_ops.md). Operands are
read before a result is written (spec/70_reset_and_hazards.md R242).
-/

namespace Sys2Proof.Machine

/-- LR's handler: `x[R1] <- x[R2]` (R130). -/
def handleLr (r1 r2 : Nibble) (s : State) : Except Fault State :=
  .ok (s.setReg r1 (s.reg r2))

/-- CR's handler: the signed comparison of two registers (R135). -/
def handleCr (r1 r2 : Nibble) (s : State) : Except Fault State :=
  .ok (s.setCc (cmp3 (s.reg r1) (s.reg r2)))

/-- A 32-bit result and the sign of it, as AR and SR write them (R140, R145). -/
def State.setResult (s : State) (r1 : Nibble) (v : Word) : State :=
  (s.setReg r1 v).setCc (sign3 v)

/-- AR's handler: the sum modulo 2^32 (R140; log 2). -/
def handleAr (r1 r2 : Nibble) (s : State) : Except Fault State :=
  .ok (s.setResult r1 (s.reg r1 + s.reg r2))

/-- SR's handler: the difference modulo 2^32 (R145; log 2). -/
def handleSr (r1 r2 : Nibble) (s : State) : Except Fault State :=
  .ok (s.setResult r1 (s.reg r1 - s.reg r2))

/-- LR (R130). -/
def execLr (r1 r2 : Nibble) (s : State) : Host.Outcome State Fault Refusal :=
  runCycle (.lr r1 r2) (fun u => handleLr r1 r2 (u.countExec .lr)) s

/-- CR (R135). -/
def execCr (r1 r2 : Nibble) (s : State) : Host.Outcome State Fault Refusal :=
  runCycle (.cr r1 r2) (fun u => handleCr r1 r2 (u.countExec .cr)) s

/-- AR (R140). -/
def execAr (r1 r2 : Nibble) (s : State) : Host.Outcome State Fault Refusal :=
  runCycle (.ar r1 r2) (fun u => handleAr r1 r2 (u.countExec .ar)) s

/-- SR (R145). -/
def execSr (r1 r2 : Nibble) (s : State) : Host.Outcome State Fault Refusal :=
  runCycle (.sr r1 r2) (fun u => handleSr r1 r2 (u.countExec .sr)) s

end Sys2Proof.Machine
end

