-- ==== Sys2Proof/Machine/Cache.lean ====
section
/-!
DEFINITION. The cache simulator of spec/20_memory.md R60 and R61: it counts hits and misses, keeps
recency stamps, and changes no data (R63).
-/

namespace Sys2Proof.Machine

/-- The set index: address bits 6 to 3 (R61). -/
def setIndex (a : Nat) : Fin 16 := Fin.ofNat 16 ((a >>> 3) &&& 0xF)

/-- The tag: "all higher bits" (R61). -/
def tagOf (a : Nat) : Nat := a >>> 7

/-- `line[b][s]` (R33). -/
def Cache.line (c : Cache) (b : Bank) (i : Fin 16) : Line :=
  match b with
  | .bank0 => c.bank0[i.val]
  | .bank1 => c.bank1[i.val]

/-- `line[b][s] <- v` (R60). -/
def Cache.setLine (c : Cache) (b : Bank) (i : Fin 16) (v : Line) : Cache :=
  match b with
  | .bank0 => { c with bank0 := c.bank0.set i.val v }
  | .bank1 => { c with bank1 := c.bank1.set i.val v }

/-- A line hits a tag when it is valid and holds it (R60, R64 (v)). -/
def Line.hits (v : Line) (t : Nat) : Bool := v.valid && v.tag == t

/-- The bank that hits an address, if one does. At most one can in a state that a run reaches (R64 (ii));
of two, bank 0 is taken (DESIGN CHOICE, safe, log 25). -/
def Cache.hitBank (c : Cache) (a : Nat) : Option Bank :=
  if (c.line .bank0 (setIndex a)).hits (tagOf a) then some .bank0
  else if (c.line .bank1 (setIndex a)).hits (tagOf a) then some .bank1
  else none

/-- The bank a miss installs into (R60): an invalid bank, bank 0 first, else bank 0 unless bank 1's stamp is
strictly smaller. -/
def Cache.victim (c : Cache) (i : Fin 16) : Bank :=
  if (c.line .bank0 i).valid = false then .bank0
  else if (c.line .bank1 i).valid = false then .bank1
  else if (c.line .bank1 i).recency < (c.line .bank0 i).recency then .bank1
  else .bank0

/-- `acc <- acc + 1`, the first step of an access (R60); unbounded (R68, log 12). -/
def Cache.tick (c : Cache) : Cache := { c with acc := c.acc + 1 }

/-- A hit restamps its line with the new `acc` (R60). -/
def Cache.touch (c : Cache) (b : Bank) (i : Fin 16) : Cache :=
  c.setLine b i { c.line b i with recency := c.acc }

/-- A miss installs the tag, stamped with the new `acc` (R60). -/
def Cache.install (c : Cache) (b : Bank) (a : Nat) : Cache :=
  c.setLine b (setIndex a) { valid := true, tag := tagOf a, recency := c.acc }

/-- The lines and `acc` after an access (R60). -/
def Cache.access (c : Cache) (a : Nat) : Cache :=
  match c.tick.hitBank a with
  | some b => c.tick.touch b (setIndex a)
  | none => c.tick.install (c.tick.victim (setIndex a)) a

/-- `cache_hits += 1` or `cache_misses += 1` (R60). -/
def Tallies.countCache (t : Tallies) (hit : Bool) : Tallies :=
  if hit then { t with cacheHits := t.cacheHits + 1 } else { t with cacheMisses := t.cacheMisses + 1 }

/-- `CacheAccess(a)` (R60): the cache and the tally of hits or misses, nothing else (R63). -/
def State.cacheAccess (s : State) (a : Nat) : State :=
  { s with
    cache := s.cache.access a
    tally := s.tally.countCache (s.cache.hitBank a).isSome }

end Sys2Proof.Machine
end

