-- ==== Sys2Proof/Machine/Operands.lean ====
section
/-!
DEFINITION. The operand forms of the storage instructions. L and C address memory with the raw sum of
their fields (`rxEa`, Decode.lean; spec/30_encoding.md R85). ST has the three cases of
spec/43_rx_storage.md R170, written here as R171 tabulates them.
-/

namespace Sys2Proof.Machine

/-- What an ST stores where (R171). -/
structure StAccess where
  /-- The address stored to. -/
  store : Nat
  /-- The address the cache sees. -/
  cache : Nat
  /-- The bytes stored, the one at the lowest address first. -/
  bytes : List Byte
  deriving DecidableEq, Repr

/-- The three cases of ST, keyed on whether the FIELDS B2 and X2 are zero (R170, R171): (a) B2 not zero,
(b) both zero, (c) only B2 zero. In case (a) the store goes to `x[B2]` in both sub-cases
(spec/90_conflicts.md C5, log 30); case (c) stores the low byte of its own address (decision D8;
UNVERIFIED, unsafe, log 8). -/
def stAccess (s : State) (r1 x2 b2 : Nibble) (d2 : Disp) : StAccess :=
  if b2 ≠ 0#4 then
    { store := (s.reg b2).toNat
      cache := if x2 = 0#4 then (s.reg b2).toNat + d2.toNat else b2.toNat + x2.toNat + d2.toNat
      bytes := wordBytes (s.reg r1) }
  else if x2 = 0#4 then
    { store := d2.toNat
      cache := rxEa x2 b2 d2
      bytes := wordBytes (s.reg r1) }
  else
    { store := (s.reg x2).toNat
      cache := (s.reg x2).toNat
      bytes := [trunc8 (s.reg x2)] }

end Sys2Proof.Machine
end

