-- ==== Sys2Proof/Machine/Storage.lean ====
section
/-!
DEFINITION. The storage instructions ST, L and C (spec/43_rx_storage.md). The range check comes before any
effect; then exactly one cache access (spec/20_memory.md R62), then the bytes of memory.
-/

namespace Sys2Proof.Machine

/-- ST's handler (R170): the cache address is never range-checked (decision D18, log 16). -/
def handleSt (r1 x2 b2 : Nibble) (d2 : Disp) (s : State) : Except Fault State := do
  let p := stAccess s r1 x2 b2 d2
  checkRange p.store p.bytes.length
  return ((s.cacheAccess p.cache).writeBytes p.store p.bytes).countWrite

/-- L's handler: the big-endian word at the effective address (R180). -/
def handleL (r1 x2 b2 : Nibble) (d2 : Disp) (s : State) : Except Fault State := do
  let a := rxEa x2 b2 d2
  checkRange a 4
  let u := s.cacheAccess a
  return (u.setReg r1 (u.readWord a)).countRead

/-- C's handler: the register first, the memory word second (R185; decision D3, UNVERIFIED, unsafe,
log 4), compared as CR does (decision D2, log 3). -/
def handleC (r1 x2 b2 : Nibble) (d2 : Disp) (s : State) : Except Fault State := do
  let a := rxEa x2 b2 d2
  checkRange a 4
  let u := s.cacheAccess a
  return (u.setCc (cmp3 (u.reg r1) (u.readWord a))).countRead

/-- ST (R170, R171). -/
def execSt (r1 x2 b2 : Nibble) (d2 : Disp) (s : State) : Host.Outcome State Fault Refusal :=
  runCycle (.st r1 x2 b2 d2) (fun u => handleSt r1 x2 b2 d2 (u.countExec .st)) s

/-- L (R180). -/
def execL (r1 x2 b2 : Nibble) (d2 : Disp) (s : State) : Host.Outcome State Fault Refusal :=
  runCycle (.l r1 x2 b2 d2) (fun u => handleL r1 x2 b2 d2 (u.countExec .l)) s

/-- C (R185). -/
def execC (r1 x2 b2 : Nibble) (d2 : Disp) (s : State) : Host.Outcome State Fault Refusal :=
  runCycle (.c r1 x2 b2 d2) (fun u => handleC r1 x2 b2 d2 (u.countExec .c)) s

end Sys2Proof.Machine
end

