-- ==== Sys2Proof/Machine/RunLoop.lean ====
section
/-!
DEFINITION. The run loop (spec/40_run_loop.md R110): fetching and decoding the instruction at the PC,
the cycle of an unassigned opcode (R115), one iteration of the loop under an opcode map, and what the
host reads of a run's end (R116, spec/00_scope.md R9, spec/60_exceptions.md R205).
-/

namespace Sys2Proof.Machine

/-- Decode the instruction at the PC (R80). A byte above offset 4095 raises FetchOutOfRange, at the first
such offset (R200; decision D6, log 6). -/
def State.fetchDecode (s : State) (om : OpMap) : Except Fault Decoded :=
  decodeFrom om fun k => s.fetch8 (s.pc + k)

/-- The cycle of an unassigned opcode: decode's changes and the trace, nothing else (R115; decision D20,
log 18). -/
def State.skipUnassigned (s : State) (d : Decoded) : State := (s.decodeAdvance d).endCycle

/-- One cycle from a running state (R110): a fetch that faults ends it, with nothing else changed (R203). -/
def runningCycle (om : OpMap) (s : State) : Host.Outcome State Fault Refusal :=
  match s.fetchDecode om with
  | .error f => .next (s.takeFault f)
  | .ok (.instr i) => exec i s
  | .ok (.unassignedRR op r1 r2) => .next (s.skipUnassigned (.unassignedRR op r1 r2))
  | .ok (.unassignedRX op r1 x2 b2 d2) => .next (s.skipUnassigned (.unassignedRX op r1 x2 b2 d2))

/-- One iteration of the run loop under an opcode map: a cycle happens in `running` only, and no cycle
changes a terminal state (R31, R110). In `halted` and `fatalBC` the state stays as it is; in the
model's own stop the reason is answered as a fault (DESIGN CHOICE, safe, log 20). -/
def cycle (om : OpMap) (s : State) : Host.Outcome State Fault Refusal :=
  match s.status with
  | .running => runningCycle om s
  | .halted => .next s
  | .fatalBC => .next s
  | .fault f => .fault f

/-- The exit status a terminal run status reports (R9): 0 for both successful ends
(spec/90_conflicts.md C2), none in the source for a model fault. -/
def RunStatus.exitStatus : RunStatus → Option Nat
  | .running => none
  | .halted => some 0
  | .fatalBC => some 0
  | .fault _ => none

/-- The numbering R205 gives the terminal statuses, the spec's own labels. -/
def RunStatus.causeCode : RunStatus → Option Nat
  | .running => none
  | .halted => some 0
  | .fatalBC => some 1
  | .fault (.fetchOutOfRange _) => some 2
  | .fault (.dataOutOfRange _ _) => some 3

end Sys2Proof.Machine
end

