-- ==== Sys2Proof/Machine/Step.lean ====
section
/-! DEFINITION. The machine's step: one cycle of the run loop under the default opcode map (decision D23). -/

namespace Sys2Proof.Machine

/-- One step is one iteration of the run loop (R110), under the default `OPMAP` (R88, log 1). -/
def step : State → Host.Outcome State Fault Refusal := fun s => cycle defaultOpMap s

/-- The state with the instruction whose bits are `w` placed where the next cycle fetches, at the PC (log 11,
log 28). Nothing else changes. -/
def State.withFetchWord (s : State) (nbits w : Nat) : State := s.placeAtPc (tableBytes nbits w)

end Sys2Proof.Machine
end

