-- ==== Sys2Proof/Safety.lean ====
section
/-!
DEFINITION. The terms in which claims speak of the machine: what a cycle keeps, how a run ends, and the
invariants every step keeps.
-/

namespace Sys2Proof.Machine

/-! ### How a run ends (spec/40_run_loop.md R116) -/

/-- A successful end: `halted` or `fatalBC`, both of exit status 0 (R116, spec/00_scope.md R9). -/
def State.endedWell (s : State) : Bool := s.status = .halted || s.status = .fatalBC

/-- The model's own stop, which a claim about a program excludes by a premise (R116, R202). -/
def State.faulted (s : State) : Bool :=
  match s.status with
  | .fault _ => true
  | .running => false
  | .halted => false
  | .fatalBC => false

/-! ### What a cycle from `s` to `t` keeps -/

/-- Every general register is unchanged. -/
def RegsKept (s t : State) : Prop := ∀ q : Nibble, t.reg q = s.reg q

/-- Every general register but `r` is unchanged. -/
def RegsKeptBut (r : Nibble) (s t : State) : Prop := ∀ q : Nibble, q ≠ r → t.reg q = s.reg q

/-- Every byte of memory reads as before. -/
def MemoryKept (s t : State) : Prop := ∀ a : Nat, t.readByte a = s.readByte a

/-- Every byte of memory outside the `n` bytes at `a` reads as before. -/
def MemoryKeptOutside (a n : Nat) (s t : State) : Prop :=
  ∀ q : Nat, (q < a ∨ a + n ≤ q) → t.readByte q = s.readByte q

/-- The cache lines and the access counter are unchanged. -/
def CacheKept (s t : State) : Prop := t.cache = s.cache

/-- The cycle of the record `d` ended in `running`: its record is held and the halt flag is unchanged
(R110, spec/10_state.md R35). -/
def RanOn (d : Decoded) (s t : State) : Prop :=
  t.record = some d ∧ t.status = .running ∧ t.halted = s.halted

/-- The cycle of the record `d` from `s` takes its branch: a BCT whose register does not become zero (R155), or
a BC with the IA, its own advance included, at most 4095 and a mask that meets the condition code (R160). -/
def BranchTaken (s : State) (d : Decoded) : Prop :=
  (∃ (r1 x2 b2 : Nibble) (d2 : Disp), d = .instr (.bct r1 x2 b2 d2) ∧ s.reg r1 ≠ 1#32) ∨
  (∃ (m1 x2 b2 : Nibble) (d2 : Disp), d = .instr (.bc m1 x2 b2 d2) ∧
    s.ia + (if d2.toNat = 4095 then 4095 else 4) ≤ 4095 ∧ m1 &&& s.cc.value ≠ 0#4)

/-! ### Invariants -/

/-- Memory is in its canonical form: equal memories are equal data. -/
def MemoryCanonical (s : State) : Prop := s.mem.wf = true

/-- The status is `halted` exactly when the halt flag is set (spec/10_state.md R31). -/
def HaltAgrees (s : State) : Prop := s.status = .halted ↔ s.halted = true

/-- The consequences (i) and (ii) that spec/20_memory.md R64 draws of the cache procedure: the stamps of
valid lines are not zero, at most `acc` and distinct, and two valid lines of a set hold distinct tags. -/
structure CacheOrdered (c : Cache) : Prop where
  stamped : ∀ (b : Bank) (i : Fin 16), (c.line b i).valid = true →
    1 ≤ (c.line b i).recency ∧ (c.line b i).recency ≤ c.acc
  stampsDistinct : ∀ (b b' : Bank) (i i' : Fin 16), (b, i) ≠ (b', i') →
    (c.line b i).valid = true → (c.line b' i').valid = true →
    (c.line b i).recency ≠ (c.line b' i').recency
  tagsDistinct : ∀ i : Fin 16, (c.line .bank0 i).valid = true → (c.line .bank1 i).valid = true →
    (c.line .bank0 i).tag ≠ (c.line .bank1 i).tag

/-- The sum of the ten tallies `exec[op]`. -/
def OpTally.total (t : OpTally) : Nat :=
  t.lr + t.cr + t.ar + t.sr + t.la + t.bct + t.bc + t.st + t.l + t.c

/-- The tallies agree with each other and with `acc`: one cache access for each ST, L and C and none else
(R62), one memory read for each L and C and one write for each ST, a branch taken only where its opcode
was dispatched, and every dispatch was fetched (R30). -/
structure TallyBalanced (s : State) : Prop where
  accesses : s.cache.acc = s.tally.cacheHits + s.tally.cacheMisses
  dataAccesses : s.cache.acc = s.tally.memReads + s.tally.memWrites
  reads : s.tally.memReads = s.tally.exec.l + s.tally.exec.c
  writes : s.tally.memWrites = s.tally.exec.st
  takenBct : s.tally.takenBct ≤ s.tally.exec.bct
  takenBc : s.tally.takenBc ≤ s.tally.exec.bc
  fetched : s.tally.exec.total ≤ s.tally.fetch

/-- The argument of spec/10_state.md R28, as an invariant: with `j` cycles since the last reset or taken
branch, the PC has moved by at least `2 * j`, and the IA by at most `4095 * j`; and the PC is at most
4125 (R24). -/
def PcIaBounded (s : State) : Prop :=
  s.pc ≤ 4125 ∧ ∃ j : Nat, j ≤ 2048 ∧ 2 * j ≤ s.pc ∧ s.ia ≤ 4125 + 4095 * j

/-- Two states agree on everything but the cache, the tallies, the record `I` and the events emitted. -/
def SameArchitecture (s s' : State) : Prop :=
  s.regs = s'.regs ∧ s.pc = s'.pc ∧ s.ia = s'.ia ∧ s.cc = s'.cc ∧ s.halted = s'.halted ∧
    s.status = s'.status ∧ s.mem = s'.mem

end Sys2Proof.Machine
end

