-- ==== Sys2Proof/Certificates/Slice0/Obligations.lean ====
section
/-!
DEFINITION. The statements for the provers. Each docstring names the rule of spec/ it formalises, or says
which decision of the spec (or log entry) it rests on.
-/

open Sys2Proof Sys2Proof.Machine

/-! ### Decoding and encoding -/

/-- R90, R92, R94: under any map that meets R11, the bytes of a record decode to that record, every operand
at every value, whatever bytes follow. -/
def Obligations.DecodeInvertsEncode : Prop :=
  ∀ (om : OpMap) (d : Decoded) (rest : List Byte), om.wf = true → d.wf om = true →
    decode om (encodeRecord om d ++ rest) = .ok d

/-- R92, R94: what decodes is the encoding of the record it decodes to, over exactly the record's length, so
no bit of an instruction is dropped; and the record is well formed. -/
def Obligations.DecodedBytesAreTheEncoding : Prop :=
  ∀ (om : OpMap) (bytes : List Byte) (d : Decoded), om.wf = true → decode om bytes = .ok d →
    d.wf om = true ∧ d.length ≤ bytes.length ∧ bytes.take d.length = encodeRecord om d

/-- R94: the length follows from the high nibble of the first byte alone, and decoding fails only where a
byte of the instruction is missing, at the first such byte. -/
def Obligations.DecodeFailsOnlyOnMissingByte : Prop :=
  ∀ (om : OpMap) (op : Byte) (tail : List Byte),
    decode om [] = .error (.missingByte 0) ∧
    ((if op.toNat / 16 = 0 then 1 else if op.toNat / 16 = 1 then 2 else 4) ≤ (op :: tail).length →
      ∃ d, decode om (op :: tail) = .ok d) ∧
    ((op :: tail).length < (if op.toNat / 16 = 0 then 1 else if op.toNat / 16 = 1 then 2 else 4) →
      decode om (op :: tail) = .error (.missingByte (op :: tail).length))

/-- R83: the RR fields, the effective address equal to the R2 field, and the advances of 2. -/
def Obligations.RrFieldsAndAdvance : Prop :=
  ∀ (om : OpMap) (op b1 : Byte) (rest : List Byte), op.toNat / 16 = 1 →
    ∃ (r1 r2 : Nibble) (d : Decoded), decode om (op :: b1 :: rest) = .ok d ∧ d = recordRR om op r1 r2 ∧
      r1.toNat = b1.toNat / 16 ∧ r2.toNat = b1.toNat % 16 ∧ d.ea = some (b1.toNat % 16) ∧
      d.length = 2 ∧ d.iaAdvance = 2

/-- R84, R85: the RX fields and the effective address, the raw sum of the fields, at most 4125. No state
takes part, so no register does. -/
def Obligations.RxFieldsAndEffectiveAddress : Prop :=
  ∀ (om : OpMap) (op b1 b2 b3 : Byte) (rest : List Byte), 2 ≤ op.toNat / 16 →
    ∃ (r1 x2 b : Nibble) (d2 : Disp) (d : Decoded) (ea : Nat),
      decode om (op :: b1 :: b2 :: b3 :: rest) = .ok d ∧ d = recordRX om op r1 x2 b d2 ∧
      r1.toNat = b1.toNat / 16 ∧ x2.toNat = b1.toNat % 16 ∧ b.toNat = b2.toNat / 16 ∧
      d2.toNat = b2.toNat % 16 * 256 + b3.toNat ∧ d.disp = some d2 ∧ d.ea = some ea ∧
      ea = x2.toNat + b.toNat + d2.toNat ∧ ea ≤ 4125

/-- The default map (R88, the spec's decision D4 from general knowledge, log 1) meets R11 and holds these
bytes; and words written out from the encodings of spec/opcode_table.json and the examples of spec/41
to spec/44 decode to the instructions they stand for. -/
def Obligations.DefaultMapAndItsWordsDecode : Prop :=
  defaultOpMap.wf = true ∧
  [Op.lr, .cr, .ar, .sr, .la, .bct, .bc, .st, .l, .c].map defaultOpMap =
    [0x18#8, 0x19#8, 0x1A#8, 0x1B#8, 0x41#8, 0x46#8, 0x47#8, 0x50#8, 0x58#8, 0x59#8] ∧
  decodeTableWord 16 0x1812 = some (.lr 1 2) ∧
  decodeTableWord 16 0x1B56 = some (.sr 5 6) ∧
  decodeTableWord 32 0x41132005 = some (.la 1 3 2 5) ∧
  decodeTableWord 32 0x47224FFE = some (.bc 2 2 4 0xFFE) ∧
  decodeTableWord 32 0x50102FFF = some (.st 1 0 2 0xFFF) ∧
  decodeTableWord 32 0x58211020 = some (.l 2 1 1 0x020) ∧
  decodeTableWord 8 0x05 = some (.halt 5) ∧
  decodeTableWord 16 0x1000 = none

/-! ### Fetch, dispatch and the run loop -/

/-- R80, R200 (decision D6, log 6): fetch decodes the bytes of memory from the PC on, and where they end at
offset 4095 too soon, it faults with the first missing offset. -/
def Obligations.FetchDecodesMemoryAtPc : Prop :=
  ∀ (om : OpMap) (s : State),
    s.fetchDecode om =
      match decode om ((List.range (min 4 (4096 - s.pc))).map fun k => s.readByte (s.pc + k)) with
      | .ok d => .ok d
      | .error (.missingByte k) => .error (.fetchOutOfRange (s.pc + k))

/-- R110, R113: when the bytes at the PC decode to an instruction, the step of a running machine is exec of
that instruction at that state; nothing is added around it (exec is the whole cycle, log 24; the map is the
default one, log 1). -/
def Obligations.StepRunsDecodedInstruction : Prop :=
  ∀ (i : Instr) (s : State), s.status = .running → s.fetchDecode defaultOpMap = .ok (.instr i) →
    step s = exec i s

/-- R80, R90, R113: when memory holds an instruction's encoding at the PC, the cycle runs it, under any map
that meets R11. -/
def Obligations.CycleRunsEncodedInstruction : Prop :=
  ∀ (om : OpMap) (i : Instr) (s : State), om.wf = true → s.status = .running →
    (∀ (k : Nat) (h : k < (encode om i).length),
      s.pc + k < 4096 ∧ s.readByte (s.pc + k) = (encode om i)[k]) →
    cycle om s = exec i s

/-- R89: a byte equal to OPMAP(m) runs handler m, a halt-form byte runs HALT, every other byte runs no
handler, wherever the bytes its class needs lie in memory. -/
def Obligations.DispatchMatchesWholeByte : Prop :=
  ∀ (om : OpMap) (s : State), om.wf = true → s.status = .running →
    s.pc + (if (s.readByte s.pc).toNat / 16 = 0 then 1
            else if (s.readByte s.pc).toNat / 16 = 1 then 2 else 4) ≤ 4096 →
    (∀ m : Op, s.readByte s.pc = om m → ∃ i : Instr, i.op = some m ∧ cycle om s = exec i s) ∧
    ((s.readByte s.pc).toNat / 16 = 0 → ∃ h : Nibble, cycle om s = exec (.halt h) s) ∧
    ((s.readByte s.pc).toNat / 16 ≠ 0 → (∀ m : Op, s.readByte s.pc ≠ om m) →
      ∃ d : Decoded, (∀ i : Instr, d ≠ .instr i) ∧ cycle om s = .next (s.skipUnassigned d))

/-- R115: an unassigned opcode makes decode's changes and nothing else: no register, condition code, memory
cell, cache line, access counter or tally but `fetch` changes, no error is raised, and the cycle ends
in `running`. -/
def Obligations.UnassignedOpcodeIsIgnored : Prop :=
  ∀ (om : OpMap) (s : State), om.wf = true → s.status = .running → s.pc < 4096 →
    om.unassigned (s.readByte s.pc) = true →
    ((s.readByte s.pc).toNat / 16 = 1 → s.pc + 1 < 4096 →
      ∃ d t, s.fetchDecode om = .ok d ∧ cycle om s = .next t ∧ RanOn d s t ∧
        t.pc = s.pc + 2 ∧ t.ia = s.ia + 2 ∧ t.tally = { s.tally with fetch := s.tally.fetch + 1 } ∧
        RegsKept s t ∧ t.cc = s.cc ∧ MemoryKept s t ∧ CacheKept s t) ∧
    (2 ≤ (s.readByte s.pc).toNat / 16 → s.pc + 3 < 4096 →
      ∃ d t, s.fetchDecode om = .ok d ∧ cycle om s = .next t ∧ RanOn d s t ∧
        t.pc = s.pc + 4 ∧
        t.ia = s.ia +
          (if (s.readByte (s.pc + 2)).toNat % 16 * 256 + (s.readByte (s.pc + 3)).toNat = 4095 then 4095
            else 4) ∧
        t.tally = { s.tally with fetch := s.tally.fetch + 1 } ∧
        RegsKept s t ∧ t.cc = s.cc ∧ MemoryKept s t ∧ CacheKept s t)

/-- R31: no cycle changes a terminal state. That the step answers the same state after a successful end, and
the reason after a model fault, is the model's choice (log 20). -/
def Obligations.TerminalStatusIsFinal : Prop :=
  ∀ (om : OpMap) (s : State),
    (s.status = .halted → cycle om s = .next s) ∧
    (s.status = .fatalBC → cycle om s = .next s) ∧
    (∀ f : Fault, s.status = .fault f → cycle om s = .fault f)

/-- R112, R117, R207: a cycle from a running state has exactly one outcome, a next state that is running,
halted by HALT, stopped by a BC with the IA above 4095 after its own advance, or faulted by a fetch
beyond memory or a data access beyond it (decisions D6, D7, log 6, log 7). -/
def Obligations.CycleOutcomes : Prop :=
  ∀ (om : OpMap) (s : State), s.status = .running →
    ∃ t, cycle om s = .next t ∧
      (t.status = .running ∨
       (t.status = .halted ∧ ∃ h : Nibble, s.fetchDecode om = .ok (.instr (.halt h))) ∨
       (t.status = .fatalBC ∧ ∃ (m1 x2 b2 : Nibble) (d2 : Disp),
          s.fetchDecode om = .ok (.instr (.bc m1 x2 b2 d2)) ∧
          4095 < s.ia + (if d2.toNat = 4095 then 4095 else 4)) ∨
       (∃ a, t.status = .fault (.fetchOutOfRange a) ∧ 4096 ≤ a ∧ s.pc ≤ a ∧ a ≤ s.pc + 3 ∧
          s.fetchDecode om = .error (.fetchOutOfRange a)) ∨
       (∃ a n i, t.status = .fault (.dataOutOfRange a n) ∧ 4096 < a + n ∧
          s.fetchDecode om = .ok (.instr i) ∧ (i.op = some .st ∨ i.op = some .l ∨ i.op = some .c)))

/-- R203, R111 (decision D19, log 17): a cycle that ends in a model fault leaves the state exactly as it was
before it, but for the status. -/
def Obligations.ModelFaultUndoesCycle : Prop :=
  ∀ (om : OpMap) (s t : State) (f : Fault), s.status = .running → cycle om s = .next t →
    t.status = .fault f → t = { s with status := .fault f }

/-- R200 (decision D6, log 6): a fetch whose first byte, or whose second byte in the RR class, or whose
second, third or fourth byte in the RX class, lies beyond memory faults at the first such offset, with
nothing else changed. -/
def Obligations.FetchBeyondMemoryFaults : Prop :=
  ∀ (om : OpMap) (s : State), s.status = .running →
    (4096 ≤ s.pc → cycle om s = .next { s with status := .fault (.fetchOutOfRange s.pc) }) ∧
    (s.pc = 4095 → (s.readByte s.pc).toNat / 16 = 1 →
      cycle om s = .next { s with status := .fault (.fetchOutOfRange 4096) }) ∧
    (4093 ≤ s.pc → s.pc ≤ 4095 → 2 ≤ (s.readByte s.pc).toNat / 16 →
      cycle om s = .next { s with status := .fault (.fetchOutOfRange 4096) })

/-- R118, R161 (decisions D17, D20, log 15, log 18; the events are the model's own field, log 22): one trace
after a cycle that ends in `running`, one dump where BC stops the run, nothing else. -/
def Obligations.EventsOfACycle : Prop :=
  ∀ (om : OpMap) (s t : State), s.status = .running → cycle om s = .next t →
    (t.status = .running → t.events = s.events ++ [.trace t.ia t.pc t.cc t.regs]) ∧
    (t.status = .fatalBC → t.events = s.events ++ [.dump t.regs t.ia t.cc]) ∧
    (t.status = .halted → t.events = s.events) ∧
    (∀ f : Fault, t.status = .fault f → t.events = s.events)

/-- R191: control that reaches a cell holding 0 halts, one byte past it. -/
def Obligations.ZeroCellHalts : Prop :=
  ∀ (om : OpMap) (s : State), s.status = .running → s.pc < 4096 → s.readByte s.pc = 0#8 →
    ∃ t, cycle om s = .next t ∧ t.status = .halted ∧ t.halted = true ∧ t.pc = s.pc + 1 ∧
      RegsKept s t ∧ t.cc = s.cc ∧ MemoryKept s t ∧ CacheKept s t

/-! ### The instructions: result, completion and frame -/

/-- R130: LR copies a register, exactly. Its opcode byte is OPMAP(LR), whatever the map (R11). -/
def Obligations.LrCopiesRegister : Prop :=
  ∀ (r1 r2 : Nibble) (s : State), s.status = .running →
    (∀ om : OpMap, encode om (.lr r1 r2) = [om .lr, r1 ++ r2]) ∧
    ∃ t, exec (.lr r1 r2) s = .next t ∧
      t.reg r1 = s.reg r2 ∧ RegsKeptBut r1 s t ∧ t.cc = s.cc ∧
      t.pc = s.pc + 2 ∧ t.ia = s.ia + 2 ∧ RanOn (.instr (.lr r1 r2)) s t ∧
      t.tally = { s.tally with fetch := s.tally.fetch + 1,
                               exec := { s.tally.exec with lr := s.tally.exec.lr + 1 } } ∧
      MemoryKept s t ∧ CacheKept s t

/-- R135, R15: CR sets the condition code by the signed three-way comparison (signed: decision D2, log 3). -/
def Obligations.CrComparesSigned : Prop :=
  ∀ (r1 r2 : Nibble) (s : State), s.status = .running →
    (∀ om : OpMap, encode om (.cr r1 r2) = [om .cr, r1 ++ r2]) ∧
    ∃ t, exec (.cr r1 r2) s = .next t ∧
      t.cc = (if (s.reg r1).toInt = (s.reg r2).toInt then .equal
              else if (s.reg r1).toInt < (s.reg r2).toInt then .less else .greater) ∧
      RegsKept s t ∧
      t.pc = s.pc + 2 ∧ t.ia = s.ia + 2 ∧ RanOn (.instr (.cr r1 r2)) s t ∧
      t.tally = { s.tally with fetch := s.tally.fetch + 1,
                               exec := { s.tally.exec with cr := s.tally.exec.cr + 1 } } ∧
      MemoryKept s t ∧ CacheKept s t

/-- R140, R15: AR adds modulo 2^32 and sets the condition code by the sign of the wrapped result (signed:
decision D2, log 3). -/
def Obligations.ArAddsAndSetsSign : Prop :=
  ∀ (r1 r2 : Nibble) (s : State), s.status = .running →
    (∀ om : OpMap, encode om (.ar r1 r2) = [om .ar, r1 ++ r2]) ∧
    ∃ t, exec (.ar r1 r2) s = .next t ∧
      t.reg r1 = s.reg r1 + s.reg r2 ∧ RegsKeptBut r1 s t ∧
      t.cc = (if s.reg r1 + s.reg r2 = 0#32 then .equal
              else if (s.reg r1 + s.reg r2).toInt < 0 then .less else .greater) ∧
      t.pc = s.pc + 2 ∧ t.ia = s.ia + 2 ∧ RanOn (.instr (.ar r1 r2)) s t ∧
      t.tally = { s.tally with fetch := s.tally.fetch + 1,
                               exec := { s.tally.exec with ar := s.tally.exec.ar + 1 } } ∧
      MemoryKept s t ∧ CacheKept s t

/-- R145, R15: SR subtracts modulo 2^32 and sets the condition code by the same rule as AR (signed: decision
D2, log 3). -/
def Obligations.SrSubtractsAndSetsSign : Prop :=
  ∀ (r1 r2 : Nibble) (s : State), s.status = .running →
    (∀ om : OpMap, encode om (.sr r1 r2) = [om .sr, r1 ++ r2]) ∧
    ∃ t, exec (.sr r1 r2) s = .next t ∧
      t.reg r1 = s.reg r1 - s.reg r2 ∧ RegsKeptBut r1 s t ∧
      t.cc = (if s.reg r1 - s.reg r2 = 0#32 then .equal
              else if (s.reg r1 - s.reg r2).toInt < 0 then .less else .greater) ∧
      t.pc = s.pc + 2 ∧ t.ia = s.ia + 2 ∧ RanOn (.instr (.sr r1 r2)) s t ∧
      t.tally = { s.tally with fetch := s.tally.fetch + 1,
                               exec := { s.tally.exec with sr := s.tally.exec.sr + 1 } } ∧
      MemoryKept s t ∧ CacheKept s t

/-- R146: what no register-to-register instruction touches. -/
def Obligations.RrInstructionsTouchNothingElse : Prop :=
  ∀ (i : Instr) (s t : State), i.format = .rr → s.status = .running → exec i s = .next t →
    MemoryKept s t ∧ CacheKept s t ∧ t.pc = s.pc + 2 ∧ t.ia = s.ia + 2 ∧
      ∃ m : Op, i.op = some m ∧ t.tally.exec.get m = s.tally.exec.get m + 1 ∧
        (∀ n : Op, n ≠ m → t.tally.exec.get n = s.tally.exec.get n) ∧
        t.tally = { s.tally with fetch := s.tally.fetch + 1, exec := t.tally.exec }

/-- R147: SR's condition code agrees with CR's on the same operands exactly where the signed difference does
not overflow. -/
def Obligations.SubtractAgreesWithCompareUnlessOverflow : Prop :=
  ∀ a b : Word, sign3 (a - b) = cmp3 a b ↔
    (-2147483648 ≤ a.toInt - b.toInt ∧ a.toInt - b.toInt ≤ 2147483647)

/-- R150: LA loads the displacement, not the effective address. Its opcode byte is OPMAP(LA), whatever the
map (R11). -/
def Obligations.LaLoadsDisplacement : Prop :=
  ∀ (r1 x2 b2 : Nibble) (d2 : Disp) (s : State), s.status = .running →
    (∀ om : OpMap, encode om (.la r1 x2 b2 d2) =
      [om .la, r1 ++ x2, b2 ++ d2.extractLsb' 8 4, d2.extractLsb' 0 8]) ∧
    ∃ t, exec (.la r1 x2 b2 d2) s = .next t ∧
      (t.reg r1).toNat = d2.toNat ∧ RegsKeptBut r1 s t ∧ t.cc = s.cc ∧
      t.pc = s.pc + 4 ∧ t.ia = s.ia + (if d2.toNat = 4095 then 4095 else 4) ∧
      RanOn (.instr (.la r1 x2 b2 d2)) s t ∧
      t.tally = { s.tally with fetch := s.tally.fetch + 1,
                               exec := { s.tally.exec with la := s.tally.exec.la + 1 } } ∧
      MemoryKept s t ∧ CacheKept s t

/-- R155: BCT decrements, and branches to the raw sum of its fields while the new value is not zero. -/
def Obligations.BctDecrementsAndBranches : Prop :=
  ∀ (r1 x2 b2 : Nibble) (d2 : Disp) (s : State), s.status = .running →
    (∀ om : OpMap, encode om (.bct r1 x2 b2 d2) =
      [om .bct, r1 ++ x2, b2 ++ d2.extractLsb' 8 4, d2.extractLsb' 0 8]) ∧
    ∃ t, exec (.bct r1 x2 b2 d2) s = .next t ∧
      t.reg r1 = s.reg r1 - 1#32 ∧ RegsKeptBut r1 s t ∧ t.cc = s.cc ∧
      RanOn (.instr (.bct r1 x2 b2 d2)) s t ∧ MemoryKept s t ∧ CacheKept s t ∧
      (s.reg r1 ≠ 1#32 →
        t.pc = x2.toNat + b2.toNat + d2.toNat ∧ t.ia = x2.toNat + b2.toNat + d2.toNat ∧
        t.tally = { s.tally with fetch := s.tally.fetch + 1,
                                 exec := { s.tally.exec with bct := s.tally.exec.bct + 1 },
                                 takenBct := s.tally.takenBct + 1 }) ∧
      (s.reg r1 = 1#32 →
        t.pc = s.pc + 4 ∧ t.ia = s.ia + (if d2.toNat = 4095 then 4095 else 4) ∧
        t.tally = { s.tally with fetch := s.tally.fetch + 1,
                                 exec := { s.tally.exec with bct := s.tally.exec.bct + 1 } })

/-- R160, R163: with the IA, its own advance included, at most 4095, BC branches to the raw sum of its fields
when the mask ANDed with the value of the condition code is not zero. -/
def Obligations.BcBranchesOnMask : Prop :=
  ∀ (m1 x2 b2 : Nibble) (d2 : Disp) (s : State), s.status = .running →
    s.ia + (if d2.toNat = 4095 then 4095 else 4) ≤ 4095 →
    (∀ om : OpMap, encode om (.bc m1 x2 b2 d2) =
      [om .bc, m1 ++ x2, b2 ++ d2.extractLsb' 8 4, d2.extractLsb' 0 8]) ∧
    ∃ t, exec (.bc m1 x2 b2 d2) s = .next t ∧
      RegsKept s t ∧ t.cc = s.cc ∧ RanOn (.instr (.bc m1 x2 b2 d2)) s t ∧
      MemoryKept s t ∧ CacheKept s t ∧
      (m1 &&& s.cc.value ≠ 0#4 →
        t.pc = x2.toNat + b2.toNat + d2.toNat ∧ t.ia = x2.toNat + b2.toNat + d2.toNat ∧
        t.tally = { s.tally with fetch := s.tally.fetch + 1,
                                 exec := { s.tally.exec with bc := s.tally.exec.bc + 1 },
                                 takenBc := s.tally.takenBc + 1 }) ∧
      (m1 &&& s.cc.value = 0#4 →
        t.pc = s.pc + 4 ∧ t.ia = s.ia + (if d2.toNat = 4095 then 4095 else 4) ∧
        t.tally = { s.tally with fetch := s.tally.fetch + 1,
                                 exec := { s.tally.exec with bc := s.tally.exec.bc + 1 } })

/-- R160, R161, R204 (decisions D14, D17, log 14, log 15): with the IA above 4095, BC dumps and stops the run
for every mask; decode and the count of BC are kept, nothing else changes. -/
def Obligations.BcFatalAboveIaLimit : Prop :=
  ∀ (m1 x2 b2 : Nibble) (d2 : Disp) (s : State),
    4095 < s.ia + (if d2.toNat = 4095 then 4095 else 4) →
    ∃ t, exec (.bc m1 x2 b2 d2) s = .next t ∧
      t.status = .fatalBC ∧ t.status.exitStatus = some 0 ∧ t.halted = s.halted ∧
      t.events = s.events ++ [.dump s.regs t.ia s.cc] ∧
      RegsKept s t ∧ t.cc = s.cc ∧ MemoryKept s t ∧ CacheKept s t ∧
      t.record = some (.instr (.bc m1 x2 b2 d2)) ∧
      t.pc = s.pc + 4 ∧ t.ia = s.ia + (if d2.toNat = 4095 then 4095 else 4) ∧
      t.tally = { s.tally with fetch := s.tally.fetch + 1,
                               exec := { s.tally.exec with bc := s.tally.exec.bc + 1 } }

/-- R162, R93: which masks take the branch at each condition code; bits 3 and 2 of the mask play no part. -/
def Obligations.BcMaskTable : Prop :=
  ∀ m1 : Nibble,
    m1 &&& CondCode.equal.value = 0#4 ∧
    (m1 &&& CondCode.less.value ≠ 0#4 ↔ m1.getLsbD 0 = true) ∧
    (m1 &&& CondCode.greater.value ≠ 0#4 ↔ m1.getLsbD 1 = true) ∧
    (∀ cc : CondCode, bcTaken m1 cc = bcTaken (m1 &&& 3#4) cc)

/-- R170, R171 case (a): B2 not zero. The word of x[R1] is stored at x[B2], most significant byte first, also
where X2 is zero and the displacement is not (log 30), at any alignment (decision D24, log 19); the cache
sees x[B2] + D2 or the raw sum (decision D18, log 16). -/
def Obligations.StCaseAStoresAtBase : Prop :=
  ∀ (r1 x2 b2 : Nibble) (d2 : Disp) (s : State), s.status = .running → MemoryCanonical s →
    b2 ≠ 0#4 → (s.reg b2).toNat ≤ 4092 →
    ∃ (t : State) (ca : Nat), exec (.st r1 x2 b2 d2) s = .next t ∧
      (x2 = 0#4 → ca = (s.reg b2).toNat + d2.toNat) ∧
      (x2 ≠ 0#4 → ca = b2.toNat + x2.toNat + d2.toNat) ∧
      t.readByte (s.reg b2).toNat = (s.reg r1).extractLsb' 24 8 ∧
      t.readByte ((s.reg b2).toNat + 1) = (s.reg r1).extractLsb' 16 8 ∧
      t.readByte ((s.reg b2).toNat + 2) = (s.reg r1).extractLsb' 8 8 ∧
      t.readByte ((s.reg b2).toNat + 3) = (s.reg r1).extractLsb' 0 8 ∧
      MemoryKeptOutside (s.reg b2).toNat 4 s t ∧
      t.cache = s.cache.access ca ∧
      RegsKept s t ∧ t.cc = s.cc ∧ t.pc = s.pc + 4 ∧
      t.ia = s.ia + (if d2.toNat = 4095 then 4095 else 4) ∧ RanOn (.instr (.st r1 x2 b2 d2)) s t ∧
      t.tally = { s.tally with
        fetch := s.tally.fetch + 1
        exec := { s.tally.exec with st := s.tally.exec.st + 1 }
        memWrites := s.tally.memWrites + 1
        cacheHits := s.tally.cacheHits + (if (s.cache.hitBank ca).isSome then 1 else 0)
        cacheMisses := s.tally.cacheMisses + (if (s.cache.hitBank ca).isSome then 0 else 1) }

/-- R170, R171 case (b): B2 and X2 zero. The word of x[R1] is stored at the displacement, at any
alignment (decision D24, log 19). -/
def Obligations.StCaseBStoresAtDisplacement : Prop :=
  ∀ (r1 : Nibble) (d2 : Disp) (s : State), s.status = .running → MemoryCanonical s → d2.toNat ≤ 4092 →
    ∃ t : State, exec (.st r1 0#4 0#4 d2) s = .next t ∧
      t.readByte d2.toNat = (s.reg r1).extractLsb' 24 8 ∧
      t.readByte (d2.toNat + 1) = (s.reg r1).extractLsb' 16 8 ∧
      t.readByte (d2.toNat + 2) = (s.reg r1).extractLsb' 8 8 ∧
      t.readByte (d2.toNat + 3) = (s.reg r1).extractLsb' 0 8 ∧
      MemoryKeptOutside d2.toNat 4 s t ∧
      t.cache = s.cache.access d2.toNat ∧
      RegsKept s t ∧ t.cc = s.cc ∧ t.pc = s.pc + 4 ∧ t.ia = s.ia + 4 ∧
      RanOn (.instr (.st r1 0#4 0#4 d2)) s t ∧
      t.tally = { s.tally with
        fetch := s.tally.fetch + 1
        exec := { s.tally.exec with st := s.tally.exec.st + 1 }
        memWrites := s.tally.memWrites + 1
        cacheHits := s.tally.cacheHits + (if (s.cache.hitBank d2.toNat).isSome then 1 else 0)
        cacheMisses := s.tally.cacheMisses + (if (s.cache.hitBank d2.toNat).isSome then 0 else 1) }

/-- R170, R171 case (c): only B2 zero. One byte is stored at x[X2]: the low byte of that address itself
(decision D8, log 8). R1 and the displacement play no part in the store. -/
def Obligations.StCaseCStoresAddressByte : Prop :=
  ∀ (r1 x2 : Nibble) (d2 : Disp) (s : State), s.status = .running → MemoryCanonical s →
    x2 ≠ 0#4 → (s.reg x2).toNat ≤ 4095 →
    ∃ t : State, exec (.st r1 x2 0#4 d2) s = .next t ∧
      (t.readByte (s.reg x2).toNat).toNat = (s.reg x2).toNat % 256 ∧
      MemoryKeptOutside (s.reg x2).toNat 1 s t ∧
      t.cache = s.cache.access (s.reg x2).toNat ∧
      RegsKept s t ∧ t.cc = s.cc ∧ t.pc = s.pc + 4 ∧
      t.ia = s.ia + (if d2.toNat = 4095 then 4095 else 4) ∧ RanOn (.instr (.st r1 x2 0#4 d2)) s t ∧
      t.tally = { s.tally with
        fetch := s.tally.fetch + 1
        exec := { s.tally.exec with st := s.tally.exec.st + 1 }
        memWrites := s.tally.memWrites + 1
        cacheHits := s.tally.cacheHits + (if (s.cache.hitBank (s.reg x2).toNat).isSome then 1 else 0)
        cacheMisses := s.tally.cacheMisses + (if (s.cache.hitBank (s.reg x2).toNat).isSome then 0 else 1) }

/-- R170, R201 (decision D7, log 7): each case of ST faults where the bytes it would write do not all lie in
memory, and nothing else changes. The address recorded is the unsigned number (log 29). -/
def Obligations.StOutOfRangeFaults : Prop :=
  ∀ (r1 x2 b2 : Nibble) (d2 : Disp) (s : State),
    (b2 ≠ 0#4 → 4092 < (s.reg b2).toNat →
      exec (.st r1 x2 b2 d2) s = .next { s with status := .fault (.dataOutOfRange (s.reg b2).toNat 4) }) ∧
    (b2 = 0#4 → x2 = 0#4 → 4092 < d2.toNat →
      exec (.st r1 x2 b2 d2) s = .next { s with status := .fault (.dataOutOfRange d2.toNat 4) }) ∧
    (b2 = 0#4 → x2 ≠ 0#4 → 4095 < (s.reg x2).toNat →
      exec (.st r1 x2 b2 d2) s = .next { s with status := .fault (.dataOutOfRange (s.reg x2).toNat 1) })

/-- R180: L reads the big-endian word at the raw sum of its fields, at any alignment (decision D24, log 19). -/
def Obligations.LLoadsBigEndianWord : Prop :=
  ∀ (r1 x2 b2 : Nibble) (d2 : Disp) (s : State) (a : Nat), s.status = .running →
    a = x2.toNat + b2.toNat + d2.toNat → a ≤ 4092 →
    (∀ om : OpMap, encode om (.l r1 x2 b2 d2) =
      [om .l, r1 ++ x2, b2 ++ d2.extractLsb' 8 4, d2.extractLsb' 0 8]) ∧
    ∃ t : State, exec (.l r1 x2 b2 d2) s = .next t ∧
      t.reg r1 = s.readByte a ++ s.readByte (a + 1) ++ s.readByte (a + 2) ++ s.readByte (a + 3) ∧
      RegsKeptBut r1 s t ∧ t.cc = s.cc ∧ MemoryKept s t ∧ t.cache = s.cache.access a ∧
      t.pc = s.pc + 4 ∧ t.ia = s.ia + (if d2.toNat = 4095 then 4095 else 4) ∧
      RanOn (.instr (.l r1 x2 b2 d2)) s t ∧
      t.tally = { s.tally with
        fetch := s.tally.fetch + 1
        exec := { s.tally.exec with l := s.tally.exec.l + 1 }
        memReads := s.tally.memReads + 1
        cacheHits := s.tally.cacheHits + (if (s.cache.hitBank a).isSome then 1 else 0)
        cacheMisses := s.tally.cacheMisses + (if (s.cache.hitBank a).isSome then 0 else 1) }

/-- R185: C compares the register, first, with the big-endian word at the raw sum of its fields, signed
(decisions D2, D3, log 3, log 4), at any alignment (decision D24, log 19). -/
def Obligations.CComparesWithMemoryWord : Prop :=
  ∀ (r1 x2 b2 : Nibble) (d2 : Disp) (s : State) (a : Nat) (w : Word), s.status = .running →
    a = x2.toNat + b2.toNat + d2.toNat → a ≤ 4092 →
    w = s.readByte a ++ s.readByte (a + 1) ++ s.readByte (a + 2) ++ s.readByte (a + 3) →
    (∀ om : OpMap, encode om (.c r1 x2 b2 d2) =
      [om .c, r1 ++ x2, b2 ++ d2.extractLsb' 8 4, d2.extractLsb' 0 8]) ∧
    ∃ t : State, exec (.c r1 x2 b2 d2) s = .next t ∧
      t.cc = (if (s.reg r1).toInt = w.toInt then .equal
              else if (s.reg r1).toInt < w.toInt then .less else .greater) ∧
      RegsKept s t ∧ MemoryKept s t ∧ t.cache = s.cache.access a ∧
      t.pc = s.pc + 4 ∧ t.ia = s.ia + (if d2.toNat = 4095 then 4095 else 4) ∧
      RanOn (.instr (.c r1 x2 b2 d2)) s t ∧
      t.tally = { s.tally with
        fetch := s.tally.fetch + 1
        exec := { s.tally.exec with c := s.tally.exec.c + 1 }
        memReads := s.tally.memReads + 1
        cacheHits := s.tally.cacheHits + (if (s.cache.hitBank a).isSome then 1 else 0)
        cacheMisses := s.tally.cacheMisses + (if (s.cache.hitBank a).isSome then 0 else 1) }

/-- R180, R185, R201 (decision D7, log 7): L and C fault where their word does not lie in memory, and nothing
else changes. -/
def Obligations.LoadOutOfRangeFaults : Prop :=
  ∀ (r1 x2 b2 : Nibble) (d2 : Disp) (s : State), 4092 < x2.toNat + b2.toNat + d2.toNat →
    exec (.l r1 x2 b2 d2) s =
      .next { s with status := .fault (.dataOutOfRange (x2.toNat + b2.toNat + d2.toNat) 4) } ∧
    exec (.c r1 x2 b2 d2) s =
      .next { s with status := .fault (.dataOutOfRange (x2.toNat + b2.toNat + d2.toNat) 4) }

/-- R190 (decisions D5, D13, log 5, log 13): HALT, whatever its low nibble, sets the halt flag and the status,
leaves the IA and steps the PC over its byte; the exit status is 0. -/
def Obligations.HaltStopsTheRun : Prop :=
  ∀ (h : Nibble) (s : State),
    (∀ om : OpMap, encode om (.halt h) = [0#4 ++ h]) ∧
    ∃ t, exec (.halt h) s = .next t ∧
      t.halted = true ∧ t.status = .halted ∧ t.status.exitStatus = some 0 ∧
      t.pc = s.pc + 1 ∧ t.ia = s.ia ∧ t.record = some (.instr (.halt h)) ∧ t.events = s.events ∧
      t.tally = { s.tally with fetch := s.tally.fetch + 1 } ∧
      RegsKept s t ∧ t.cc = s.cc ∧ MemoryKept s t ∧ CacheKept s t

/-! ### Rules over every cycle -/

/-- R51: during execution only ST changes a cell of memory; no other instruction does, nor the cache, nor
fetch. -/
def Obligations.OnlyStoreChangesMemory : Prop :=
  ∀ (om : OpMap) (s t : State) (a : Nat), cycle om s = .next t → t.readByte a ≠ s.readByte a →
    ∃ (r1 x2 b2 : Nibble) (d2 : Disp), s.fetchDecode om = .ok (.instr (.st r1 x2 b2 d2))

/-- R26: only CR, AR, SR and C write the condition code. -/
def Obligations.OnlyComparesAndArithmeticWriteCc : Prop :=
  ∀ (om : OpMap) (s t : State), cycle om s = .next t → t.cc ≠ s.cc →
    ∃ i : Instr, s.fetchDecode om = .ok (.instr i) ∧
      (i.op = some .cr ∨ i.op = some .ar ∨ i.op = some .sr ∨ i.op = some .c)

/-- R22: a register changes only as the R1 operand of LR, AR, SR, LA, BCT or L. -/
def Obligations.RegisterWritersAreTheTable : Prop :=
  ∀ (om : OpMap) (s t : State) (r : Nibble), cycle om s = .next t → t.reg r ≠ s.reg r →
    ∃ i : Instr, s.fetchDecode om = .ok (.instr i) ∧
      ((∃ q : Nibble, i = .lr r q ∨ i = .ar r q ∨ i = .sr r q) ∨
       (∃ (x b : Nibble) (d : Disp), i = .la r x b d ∨ i = .bct r x b d ∨ i = .l r x b d))

/-- R62: each execution of L, C and ST makes exactly one cache access, at the effective address or at the
address of ST's case, and no other cycle makes one, fetch included. -/
def Obligations.OneCacheAccessPerDataAccess : Prop :=
  ∀ (om : OpMap) (s t : State) (d : Decoded), s.status = .running → s.fetchDecode om = .ok d →
    cycle om s = .next t → t.faulted = false →
    match d with
    | .instr (.l _ x2 b2 d2) => t.cache = s.cache.access (x2.toNat + b2.toNat + d2.toNat)
    | .instr (.c _ x2 b2 d2) => t.cache = s.cache.access (x2.toNat + b2.toNat + d2.toNat)
    | .instr (.st r1 x2 b2 d2) => t.cache = s.cache.access (stAccess s r1 x2 b2 d2).cache
    | _ => t.cache = s.cache

/-- R81, R114 (decision D14, log 14): every decoded cycle that does not fault counts one fetch, and one
dispatch of exactly the opcode whose handler runs. -/
def Obligations.FetchAndDispatchAreCounted : Prop :=
  ∀ (om : OpMap) (s t : State) (d : Decoded), s.status = .running → s.fetchDecode om = .ok d →
    cycle om s = .next t → t.faulted = false →
    t.tally.fetch = s.tally.fetch + 1 ∧
    ∀ m : Op,
      ((∃ i : Instr, d = .instr i ∧ i.op = some m) → t.tally.exec.get m = s.tally.exec.get m + 1) ∧
      ((¬ ∃ i : Instr, d = .instr i ∧ i.op = some m) → t.tally.exec.get m = s.tally.exec.get m)

/-- R86: the PC advances by 1, 2 or 4 as the opcode byte's high nibble says, and only a taken BCT or BC
changes it after decode, to the effective address; a taken one always does. -/
def Obligations.PcMovesByFormatOrBranch : Prop :=
  ∀ (om : OpMap) (s t : State) (d : Decoded), s.status = .running → s.fetchDecode om = .ok d →
    cycle om s = .next t → t.faulted = false →
    (¬ BranchTaken s d →
      t.pc = s.pc + (if (s.readByte s.pc).toNat / 16 = 0 then 1
                     else if (s.readByte s.pc).toNat / 16 = 1 then 2 else 4)) ∧
    (BranchTaken s d → d.ea = some t.pc)

/-- R87, R27 (the halt form's 0 is decision D13, log 13): the IA advances by 0, 2, 4 or 4095, and only a taken
BCT or BC sets it otherwise, to the effective address, where it equals the PC; a taken one always does. -/
def Obligations.IaMovesByFormatOrBranch : Prop :=
  ∀ (om : OpMap) (s t : State) (d : Decoded), s.status = .running → s.fetchDecode om = .ok d →
    cycle om s = .next t → t.faulted = false →
    (¬ BranchTaken s d →
      t.ia = s.ia +
        (if (s.readByte s.pc).toNat / 16 = 0 then 0
         else if (s.readByte s.pc).toNat / 16 = 1 then 2
         else if (s.readByte (s.pc + 2)).toNat % 16 * 256 + (s.readByte (s.pc + 3)).toNat = 4095 then 4095
         else 4)) ∧
    (BranchTaken s d → d.ea = some t.ia ∧ t.pc = t.ia)

/-- R30, R35, R63: the cache, the tallies, the record of an earlier cycle and the events emitted never
influence the architecture: two states that agree on everything else still do after a cycle, and emit
the same events. -/
def Obligations.CacheAndTalliesNeverInfluence : Prop :=
  ∀ (om : OpMap) (s s' : State), SameArchitecture s s' →
    (∀ f : Fault, cycle om s = .fault f → cycle om s' = .fault f) ∧
    (∀ t : State, cycle om s = .next t →
      ∃ (t' : State) (new : List Event), cycle om s' = .next t' ∧ SameArchitecture t t' ∧
        t.events = s.events ++ new ∧ t'.events = s'.events ++ new)

/-! ### Memory and the cache -/

/-- R52: a word is stored and loaded most significant byte first, a one-byte write changes its own eight bits
of the word, and a displacement's earlier byte supplies its high bits. -/
def Obligations.BigEndianWords : Prop :=
  ∀ (s : State) (a : Nat) (w : Word) (b : Byte), MemoryCanonical s → a + 3 ≤ 4095 →
    s.readWord a = s.readByte a ++ s.readByte (a + 1) ++ s.readByte (a + 2) ++ s.readByte (a + 3) ∧
    (s.writeBytes a (wordBytes w)).readWord a = w ∧
    (s.writeBytes a (wordBytes w)).readByte a = w.extractLsb' 24 8 ∧
    (s.writeBytes a (wordBytes w)).readByte (a + 1) = w.extractLsb' 16 8 ∧
    (s.writeBytes a (wordBytes w)).readByte (a + 2) = w.extractLsb' 8 8 ∧
    (s.writeBytes a (wordBytes w)).readByte (a + 3) = w.extractLsb' 0 8 ∧
    MemoryKeptOutside a 4 s (s.writeBytes a (wordBytes w)) ∧
    ((s.writeBytes a (wordBytes w)).writeBytes (a + 1) [b]).readWord a =
      w.extractLsb' 24 8 ++ b ++ w.extractLsb' 0 16 ∧
    ∀ b2 b3 : Byte, (dispOf b2 b3).toNat = b2.toNat % 16 * 256 + b3.toNat

/-- The canonical form of memory (a convention of the model, log 33): two canonical memories that read alike
at every address are equal. -/
def Obligations.CanonicalMemoriesThatReadAlikeAreEqual : Prop :=
  ∀ m m' : Memory, m.wf = true → m'.wf = true → (∀ a : Nat, m.read a = m'.read a) → m = m'

/-- R60: the cache access procedure, with the split of R61: the access counter counts first; a hit restamps
the line that holds the tag; a miss installs into an invalid bank, bank 0 first, or into bank 0 unless
bank 1's stamp is strictly smaller; exactly one line is written, and nothing else of the state. -/
def Obligations.CacheAccessProcedure : Prop :=
  ∀ (s : State) (a : Nat) (i : Fin 16), CacheOrdered s.cache → i.val = a / 8 % 16 →
    (s.cacheAccess a).cache.acc = s.cache.acc + 1 ∧
    (s.cacheAccess a = { s with cache := (s.cacheAccess a).cache,
                                tally := { s.tally with cacheHits := (s.cacheAccess a).tally.cacheHits,
                                                        cacheMisses := (s.cacheAccess a).tally.cacheMisses } }) ∧
    (∀ b : Bank, (s.cache.line b i).valid = true → (s.cache.line b i).tag = a / 128 →
      (s.cacheAccess a).tally.cacheHits = s.tally.cacheHits + 1 ∧
      (s.cacheAccess a).tally.cacheMisses = s.tally.cacheMisses ∧
      (s.cacheAccess a).cache.line b i =
        { valid := true, tag := a / 128, recency := s.cache.acc + 1 } ∧
      ∀ b' i', (b', i') ≠ (b, i) → (s.cacheAccess a).cache.line b' i' = s.cache.line b' i') ∧
    ((∀ b : Bank, (s.cache.line b i).valid = true → (s.cache.line b i).tag ≠ a / 128) →
      (s.cacheAccess a).tally.cacheHits = s.tally.cacheHits ∧
      (s.cacheAccess a).tally.cacheMisses = s.tally.cacheMisses + 1 ∧
      ∃ v : Bank,
        ((s.cache.line .bank0 i).valid = false → v = .bank0) ∧
        ((s.cache.line .bank0 i).valid = true → (s.cache.line .bank1 i).valid = false → v = .bank1) ∧
        ((s.cache.line .bank0 i).valid = true → (s.cache.line .bank1 i).valid = true →
          v = (if (s.cache.line .bank1 i).recency < (s.cache.line .bank0 i).recency then .bank1
               else .bank0)) ∧
        (s.cacheAccess a).cache.line v i = { valid := true, tag := a / 128, recency := s.cache.acc + 1 } ∧
        ∀ b' i', (b', i') ≠ (v, i) → (s.cacheAccess a).cache.line b' i' = s.cache.line b' i')

/-- R61 (natural-number addresses: decision D18, log 16): the set is address bits 6 to 3, the tag all higher
bits, and the eight addresses of a block share both; in a cycle that does not fault, the cache
addresses of L, C and ST lie in [0, 8187], so that tags reach at most 63. -/
def Obligations.AddressSplitAndBounds : Prop :=
  (∀ a : Nat, (setIndex a).val = a / 8 % 16 ∧ tagOf a = a / 128 ∧
    ∀ k : Nat, k < 8 → setIndex (8 * a + k) = setIndex (8 * a) ∧ tagOf (8 * a + k) = tagOf (8 * a)) ∧
  (∀ (r1 x2 b2 : Nibble) (d2 : Disp) (s : State),
    (rxEa x2 b2 d2 ≤ 4092 → rxEa x2 b2 d2 ≤ 8187 ∧ tagOf (rxEa x2 b2 d2) ≤ 63) ∧
    ((stAccess s r1 x2 b2 d2).store + (stAccess s r1 x2 b2 d2).bytes.length ≤ 4096 →
      (stAccess s r1 x2 b2 d2).cache ≤ 8187 ∧ tagOf (stAccess s r1 x2 b2 d2).cache ≤ 63))

/-- R64 (iv): right after an access, an access to an address with the same set and tag hits, and it goes on
hitting after one access to any other tag of the set. -/
def Obligations.RepeatedAccessHits : Prop :=
  ∀ (c : Cache) (a a' o : Nat), CacheOrdered c → a / 8 % 16 = a' / 8 % 16 → a / 128 = a' / 128 →
    ((c.access a).hitBank a').isSome = true ∧ (((c.access a).access o).hitBank a').isSome = true

/-- R64 (iii), (iv): of three accesses to one set with distinct tags, the third evicts the least recently used
line, so that the first address misses and the other two hit. -/
def Obligations.ThirdTagEvictsLeastRecent : Prop :=
  ∀ (c : Cache) (x y z : Nat), CacheOrdered c →
    x / 8 % 16 = y / 8 % 16 → y / 8 % 16 = z / 8 % 16 →
    x / 128 ≠ y / 128 → y / 128 ≠ z / 128 → x / 128 ≠ z / 128 →
    (((c.access x).access y).access z).hitBank x = none ∧
    ((((c.access x).access y).access z).hitBank y).isSome = true ∧
    ((((c.access x).access y).access z).hitBank z).isSome = true

/-! ### Invariants and reset -/

/-- Every step keeps memory in its canonical form (the model's representation of R50, log 33). -/
def Obligations.StepKeepsMemoryCanonical : Prop :=
  ∀ s t : State, MemoryCanonical s → step s = .next t → MemoryCanonical t

/-- R31: every step keeps the halt flag and the status `halted` in agreement. -/
def Obligations.StepKeepsHaltAgreement : Prop :=
  ∀ s t : State, HaltAgrees s → step s = .next t → HaltAgrees t

/-- R64 (i), (ii): every step keeps the stamps of valid lines distinct, not zero and at most `acc`, and the
tags of a set's valid lines distinct. -/
def Obligations.StepKeepsCacheOrdered : Prop :=
  ∀ s t : State, CacheOrdered s.cache → step s = .next t → CacheOrdered t.cache

/-- R30, R62: every step keeps the tallies in balance: an access for each ST, L and C and none else, a read
for each L and C, a write for each ST, and no branch taken that was not dispatched. -/
def Obligations.StepKeepsTalliesBalanced : Prop :=
  ∀ s t : State, TallyBalanced s → step s = .next t → TallyBalanced t

/-- R28, R24: every step keeps the bounds of PC and IA, and they give R28's bound of the IA. -/
def Obligations.StepKeepsPcIaBounded : Prop :=
  ∀ s t : State, PcIaBounded s → step s = .next t →
    PcIaBounded t ∧ t.ia ≤ 8390685

/-- Reset meets every invariant. -/
def Obligations.ResetMeetsInvariants : Prop :=
  MemoryCanonical State.reset ∧ HaltAgrees State.reset ∧ CacheOrdered State.reset.cache ∧
    TallyBalanced State.reset ∧ PcIaBounded State.reset

/-- R230, R37: the state after reset. Memory's zero is the source's; every other value is the spec's own
decision D9 or D10 (log 9, log 10); the empty list of events is the model's (log 22). -/
def Obligations.ResetState : Prop :=
  (∀ r : Nibble, State.reset.reg r = 0#32) ∧ State.reset.cc = .equal ∧ State.reset.pc = 0 ∧
    State.reset.ia = 0 ∧ State.reset.halted = false ∧ State.reset.status = .running ∧
    (∀ a : Nat, State.reset.readByte a = 0#8) ∧
    (∀ (b : Bank) (i : Fin 16),
      State.reset.cache.line b i = { valid := false, tag := 0, recency := 0 }) ∧
    State.reset.cache.acc = 0 ∧ State.reset.tally.fetch = 0 ∧
    (∀ m : Op, State.reset.tally.exec.get m = 0) ∧
    State.reset.tally.takenBct = 0 ∧ State.reset.tally.takenBc = 0 ∧ State.reset.tally.memReads = 0 ∧
    State.reset.tally.memWrites = 0 ∧ State.reset.tally.cacheHits = 0 ∧
    State.reset.tally.cacheMisses = 0 ∧ State.reset.record = none ∧ State.reset.events = []

/-- R7, R232, R233 (decisions D11, D22, log 11): an image of at most 4096 bytes is placed from offset 0 on,
every other cell is 0, the rest of the state is as reset leaves it, and the invariants hold; a longer
image starts no run. -/
def Obligations.BootPlacesImage : Prop :=
  ∀ image : List Byte,
    (image.length ≤ 4096 → ∃ s, State.boot image = some s ∧
      (∀ (k : Nat) (h : k < image.length), s.readByte k = image[k]) ∧
      (∀ k : Nat, image.length ≤ k → s.readByte k = 0#8) ∧
      s = { State.reset with mem := s.mem } ∧
      MemoryCanonical s ∧ HaltAgrees s ∧ CacheOrdered s.cache ∧ TallyBalanced s ∧ PcIaBounded s) ∧
    (4096 < image.length → State.boot image = none)

/-- R9, R205: the exit status and the code of each terminal status, and none of either for `running`. That a
model fault reports no exit status is the model's choice (log 32): the source has none for it. -/
def Obligations.ExitStatusAndCauseCodes : Prop :=
  RunStatus.halted.exitStatus = some 0 ∧ RunStatus.fatalBC.exitStatus = some 0 ∧
    RunStatus.running.exitStatus = none ∧ (∀ f : Fault, (RunStatus.fault f).exitStatus = none) ∧
    RunStatus.running.causeCode = none ∧ RunStatus.halted.causeCode = some 0 ∧ RunStatus.fatalBC.causeCode = some 1 ∧
    (∀ a : Nat, (RunStatus.fault (.fetchOutOfRange a)).causeCode = some 2) ∧
    (∀ a n : Nat, (RunStatus.fault (.dataOutOfRange a n)).causeCode = some 3)
end

