-- ==== Sys2Proof/Laws/State.lean ====
section
/-!
SUPPORT. One lemma for each field and each update of the state, so that no later proof unfolds a record
update, and the lemmas of reading a register or a byte after an update.
-/

namespace Sys2Proof.Machine

variable (s : State)

/-! ### setReg -/

@[simp] theorem State.setReg_regs (r : Nibble) (v : Word) : (s.setReg r v).regs = s.regs.set r.toNat v r.isLt := rfl
@[simp] theorem State.setReg_pc (r : Nibble) (v : Word) : (s.setReg r v).pc = s.pc := rfl
@[simp] theorem State.setReg_ia (r : Nibble) (v : Word) : (s.setReg r v).ia = s.ia := rfl
@[simp] theorem State.setReg_cc (r : Nibble) (v : Word) : (s.setReg r v).cc = s.cc := rfl
@[simp] theorem State.setReg_halted (r : Nibble) (v : Word) : (s.setReg r v).halted = s.halted := rfl
@[simp] theorem State.setReg_status (r : Nibble) (v : Word) : (s.setReg r v).status = s.status := rfl
@[simp] theorem State.setReg_mem (r : Nibble) (v : Word) : (s.setReg r v).mem = s.mem := rfl
@[simp] theorem State.setReg_cache (r : Nibble) (v : Word) : (s.setReg r v).cache = s.cache := rfl
@[simp] theorem State.setReg_tally (r : Nibble) (v : Word) : (s.setReg r v).tally = s.tally := rfl
@[simp] theorem State.setReg_record (r : Nibble) (v : Word) : (s.setReg r v).record = s.record := rfl
@[simp] theorem State.setReg_events (r : Nibble) (v : Word) : (s.setReg r v).events = s.events := rfl

/-! ### setCc -/

@[simp] theorem State.setCc_regs (v : CondCode) : (s.setCc v).regs = s.regs := rfl
@[simp] theorem State.setCc_pc (v : CondCode) : (s.setCc v).pc = s.pc := rfl
@[simp] theorem State.setCc_ia (v : CondCode) : (s.setCc v).ia = s.ia := rfl
@[simp] theorem State.setCc_cc (v : CondCode) : (s.setCc v).cc = v := rfl
@[simp] theorem State.setCc_halted (v : CondCode) : (s.setCc v).halted = s.halted := rfl
@[simp] theorem State.setCc_status (v : CondCode) : (s.setCc v).status = s.status := rfl
@[simp] theorem State.setCc_mem (v : CondCode) : (s.setCc v).mem = s.mem := rfl
@[simp] theorem State.setCc_cache (v : CondCode) : (s.setCc v).cache = s.cache := rfl
@[simp] theorem State.setCc_tally (v : CondCode) : (s.setCc v).tally = s.tally := rfl
@[simp] theorem State.setCc_record (v : CondCode) : (s.setCc v).record = s.record := rfl
@[simp] theorem State.setCc_events (v : CondCode) : (s.setCc v).events = s.events := rfl

/-! ### writeBytes -/

@[simp] theorem State.writeBytes_regs (a : Nat) (bs : List Byte) : (s.writeBytes a bs).regs = s.regs := rfl
@[simp] theorem State.writeBytes_pc (a : Nat) (bs : List Byte) : (s.writeBytes a bs).pc = s.pc := rfl
@[simp] theorem State.writeBytes_ia (a : Nat) (bs : List Byte) : (s.writeBytes a bs).ia = s.ia := rfl
@[simp] theorem State.writeBytes_cc (a : Nat) (bs : List Byte) : (s.writeBytes a bs).cc = s.cc := rfl
@[simp] theorem State.writeBytes_halted (a : Nat) (bs : List Byte) : (s.writeBytes a bs).halted = s.halted := rfl
@[simp] theorem State.writeBytes_status (a : Nat) (bs : List Byte) : (s.writeBytes a bs).status = s.status := rfl
@[simp] theorem State.writeBytes_mem (a : Nat) (bs : List Byte) : (s.writeBytes a bs).mem = s.mem.writeBytes a bs := rfl
@[simp] theorem State.writeBytes_cache (a : Nat) (bs : List Byte) : (s.writeBytes a bs).cache = s.cache := rfl
@[simp] theorem State.writeBytes_tally (a : Nat) (bs : List Byte) : (s.writeBytes a bs).tally = s.tally := rfl
@[simp] theorem State.writeBytes_record (a : Nat) (bs : List Byte) : (s.writeBytes a bs).record = s.record := rfl
@[simp] theorem State.writeBytes_events (a : Nat) (bs : List Byte) : (s.writeBytes a bs).events = s.events := rfl

/-! ### countExec -/

@[simp] theorem State.countExec_regs (m : Op) : (s.countExec m).regs = s.regs := rfl
@[simp] theorem State.countExec_pc (m : Op) : (s.countExec m).pc = s.pc := rfl
@[simp] theorem State.countExec_ia (m : Op) : (s.countExec m).ia = s.ia := rfl
@[simp] theorem State.countExec_cc (m : Op) : (s.countExec m).cc = s.cc := rfl
@[simp] theorem State.countExec_halted (m : Op) : (s.countExec m).halted = s.halted := rfl
@[simp] theorem State.countExec_status (m : Op) : (s.countExec m).status = s.status := rfl
@[simp] theorem State.countExec_mem (m : Op) : (s.countExec m).mem = s.mem := rfl
@[simp] theorem State.countExec_cache (m : Op) : (s.countExec m).cache = s.cache := rfl
@[simp] theorem State.countExec_tally (m : Op) : (s.countExec m).tally = { s.tally with exec := s.tally.exec.bump m } := rfl
@[simp] theorem State.countExec_record (m : Op) : (s.countExec m).record = s.record := rfl
@[simp] theorem State.countExec_events (m : Op) : (s.countExec m).events = s.events := rfl

/-! ### countRead -/

@[simp] theorem State.countRead_regs : (s.countRead).regs = s.regs := rfl
@[simp] theorem State.countRead_pc : (s.countRead).pc = s.pc := rfl
@[simp] theorem State.countRead_ia : (s.countRead).ia = s.ia := rfl
@[simp] theorem State.countRead_cc : (s.countRead).cc = s.cc := rfl
@[simp] theorem State.countRead_halted : (s.countRead).halted = s.halted := rfl
@[simp] theorem State.countRead_status : (s.countRead).status = s.status := rfl
@[simp] theorem State.countRead_mem : (s.countRead).mem = s.mem := rfl
@[simp] theorem State.countRead_cache : (s.countRead).cache = s.cache := rfl
@[simp] theorem State.countRead_tally : (s.countRead).tally = { s.tally with memReads := s.tally.memReads + 1 } := rfl
@[simp] theorem State.countRead_record : (s.countRead).record = s.record := rfl
@[simp] theorem State.countRead_events : (s.countRead).events = s.events := rfl

/-! ### countWrite -/

@[simp] theorem State.countWrite_regs : (s.countWrite).regs = s.regs := rfl
@[simp] theorem State.countWrite_pc : (s.countWrite).pc = s.pc := rfl
@[simp] theorem State.countWrite_ia : (s.countWrite).ia = s.ia := rfl
@[simp] theorem State.countWrite_cc : (s.countWrite).cc = s.cc := rfl
@[simp] theorem State.countWrite_halted : (s.countWrite).halted = s.halted := rfl
@[simp] theorem State.countWrite_status : (s.countWrite).status = s.status := rfl
@[simp] theorem State.countWrite_mem : (s.countWrite).mem = s.mem := rfl
@[simp] theorem State.countWrite_cache : (s.countWrite).cache = s.cache := rfl
@[simp] theorem State.countWrite_tally : (s.countWrite).tally = { s.tally with memWrites := s.tally.memWrites + 1 } := rfl
@[simp] theorem State.countWrite_record : (s.countWrite).record = s.record := rfl
@[simp] theorem State.countWrite_events : (s.countWrite).events = s.events := rfl

/-! ### countTakenBct -/

@[simp] theorem State.countTakenBct_regs : (s.countTakenBct).regs = s.regs := rfl
@[simp] theorem State.countTakenBct_pc : (s.countTakenBct).pc = s.pc := rfl
@[simp] theorem State.countTakenBct_ia : (s.countTakenBct).ia = s.ia := rfl
@[simp] theorem State.countTakenBct_cc : (s.countTakenBct).cc = s.cc := rfl
@[simp] theorem State.countTakenBct_halted : (s.countTakenBct).halted = s.halted := rfl
@[simp] theorem State.countTakenBct_status : (s.countTakenBct).status = s.status := rfl
@[simp] theorem State.countTakenBct_mem : (s.countTakenBct).mem = s.mem := rfl
@[simp] theorem State.countTakenBct_cache : (s.countTakenBct).cache = s.cache := rfl
@[simp] theorem State.countTakenBct_tally : (s.countTakenBct).tally = { s.tally with takenBct := s.tally.takenBct + 1 } := rfl
@[simp] theorem State.countTakenBct_record : (s.countTakenBct).record = s.record := rfl
@[simp] theorem State.countTakenBct_events : (s.countTakenBct).events = s.events := rfl

/-! ### countTakenBc -/

@[simp] theorem State.countTakenBc_regs : (s.countTakenBc).regs = s.regs := rfl
@[simp] theorem State.countTakenBc_pc : (s.countTakenBc).pc = s.pc := rfl
@[simp] theorem State.countTakenBc_ia : (s.countTakenBc).ia = s.ia := rfl
@[simp] theorem State.countTakenBc_cc : (s.countTakenBc).cc = s.cc := rfl
@[simp] theorem State.countTakenBc_halted : (s.countTakenBc).halted = s.halted := rfl
@[simp] theorem State.countTakenBc_status : (s.countTakenBc).status = s.status := rfl
@[simp] theorem State.countTakenBc_mem : (s.countTakenBc).mem = s.mem := rfl
@[simp] theorem State.countTakenBc_cache : (s.countTakenBc).cache = s.cache := rfl
@[simp] theorem State.countTakenBc_tally : (s.countTakenBc).tally = { s.tally with takenBc := s.tally.takenBc + 1 } := rfl
@[simp] theorem State.countTakenBc_record : (s.countTakenBc).record = s.record := rfl
@[simp] theorem State.countTakenBc_events : (s.countTakenBc).events = s.events := rfl

/-! ### decodeAdvance -/

@[simp] theorem State.decodeAdvance_regs (d : Decoded) : (s.decodeAdvance d).regs = s.regs := rfl
@[simp] theorem State.decodeAdvance_pc (d : Decoded) : (s.decodeAdvance d).pc = s.pc + d.length := rfl
@[simp] theorem State.decodeAdvance_ia (d : Decoded) : (s.decodeAdvance d).ia = s.ia + d.iaAdvance := rfl
@[simp] theorem State.decodeAdvance_cc (d : Decoded) : (s.decodeAdvance d).cc = s.cc := rfl
@[simp] theorem State.decodeAdvance_halted (d : Decoded) : (s.decodeAdvance d).halted = s.halted := rfl
@[simp] theorem State.decodeAdvance_status (d : Decoded) : (s.decodeAdvance d).status = s.status := rfl
@[simp] theorem State.decodeAdvance_mem (d : Decoded) : (s.decodeAdvance d).mem = s.mem := rfl
@[simp] theorem State.decodeAdvance_cache (d : Decoded) : (s.decodeAdvance d).cache = s.cache := rfl
@[simp] theorem State.decodeAdvance_tally (d : Decoded) : (s.decodeAdvance d).tally = { s.tally with fetch := s.tally.fetch + 1 } := rfl
@[simp] theorem State.decodeAdvance_record (d : Decoded) : (s.decodeAdvance d).record = some d := rfl
@[simp] theorem State.decodeAdvance_events (d : Decoded) : (s.decodeAdvance d).events = s.events := rfl

/-! ### branchTo -/

@[simp] theorem State.branchTo_regs (a : Nat) : (s.branchTo a).regs = s.regs := rfl
@[simp] theorem State.branchTo_pc (a : Nat) : (s.branchTo a).pc = a := rfl
@[simp] theorem State.branchTo_ia (a : Nat) : (s.branchTo a).ia = a := rfl
@[simp] theorem State.branchTo_cc (a : Nat) : (s.branchTo a).cc = s.cc := rfl
@[simp] theorem State.branchTo_halted (a : Nat) : (s.branchTo a).halted = s.halted := rfl
@[simp] theorem State.branchTo_status (a : Nat) : (s.branchTo a).status = s.status := rfl
@[simp] theorem State.branchTo_mem (a : Nat) : (s.branchTo a).mem = s.mem := rfl
@[simp] theorem State.branchTo_cache (a : Nat) : (s.branchTo a).cache = s.cache := rfl
@[simp] theorem State.branchTo_tally (a : Nat) : (s.branchTo a).tally = s.tally := rfl
@[simp] theorem State.branchTo_record (a : Nat) : (s.branchTo a).record = s.record := rfl
@[simp] theorem State.branchTo_events (a : Nat) : (s.branchTo a).events = s.events := rfl

/-! ### emit -/

@[simp] theorem State.emit_regs (e : Event) : (s.emit e).regs = s.regs := rfl
@[simp] theorem State.emit_pc (e : Event) : (s.emit e).pc = s.pc := rfl
@[simp] theorem State.emit_ia (e : Event) : (s.emit e).ia = s.ia := rfl
@[simp] theorem State.emit_cc (e : Event) : (s.emit e).cc = s.cc := rfl
@[simp] theorem State.emit_halted (e : Event) : (s.emit e).halted = s.halted := rfl
@[simp] theorem State.emit_status (e : Event) : (s.emit e).status = s.status := rfl
@[simp] theorem State.emit_mem (e : Event) : (s.emit e).mem = s.mem := rfl
@[simp] theorem State.emit_cache (e : Event) : (s.emit e).cache = s.cache := rfl
@[simp] theorem State.emit_tally (e : Event) : (s.emit e).tally = s.tally := rfl
@[simp] theorem State.emit_record (e : Event) : (s.emit e).record = s.record := rfl
@[simp] theorem State.emit_events (e : Event) : (s.emit e).events = s.events ++ [e] := rfl

/-! ### takeFault -/

@[simp] theorem State.takeFault_regs (f : Fault) : (s.takeFault f).regs = s.regs := rfl
@[simp] theorem State.takeFault_pc (f : Fault) : (s.takeFault f).pc = s.pc := rfl
@[simp] theorem State.takeFault_ia (f : Fault) : (s.takeFault f).ia = s.ia := rfl
@[simp] theorem State.takeFault_cc (f : Fault) : (s.takeFault f).cc = s.cc := rfl
@[simp] theorem State.takeFault_halted (f : Fault) : (s.takeFault f).halted = s.halted := rfl
@[simp] theorem State.takeFault_status (f : Fault) : (s.takeFault f).status = .fault f := rfl
@[simp] theorem State.takeFault_mem (f : Fault) : (s.takeFault f).mem = s.mem := rfl
@[simp] theorem State.takeFault_cache (f : Fault) : (s.takeFault f).cache = s.cache := rfl
@[simp] theorem State.takeFault_tally (f : Fault) : (s.takeFault f).tally = s.tally := rfl
@[simp] theorem State.takeFault_record (f : Fault) : (s.takeFault f).record = s.record := rfl
@[simp] theorem State.takeFault_events (f : Fault) : (s.takeFault f).events = s.events := rfl

/-! ### stopHalted -/

@[simp] theorem State.stopHalted_regs : (s.stopHalted).regs = s.regs := rfl
@[simp] theorem State.stopHalted_pc : (s.stopHalted).pc = s.pc := rfl
@[simp] theorem State.stopHalted_ia : (s.stopHalted).ia = s.ia := rfl
@[simp] theorem State.stopHalted_cc : (s.stopHalted).cc = s.cc := rfl
@[simp] theorem State.stopHalted_halted : (s.stopHalted).halted = true := rfl
@[simp] theorem State.stopHalted_status : (s.stopHalted).status = .halted := rfl
@[simp] theorem State.stopHalted_mem : (s.stopHalted).mem = s.mem := rfl
@[simp] theorem State.stopHalted_cache : (s.stopHalted).cache = s.cache := rfl
@[simp] theorem State.stopHalted_tally : (s.stopHalted).tally = s.tally := rfl
@[simp] theorem State.stopHalted_record : (s.stopHalted).record = s.record := rfl
@[simp] theorem State.stopHalted_events : (s.stopHalted).events = s.events := rfl

/-! ### stopFatalBC -/

@[simp] theorem State.stopFatalBC_regs : (s.stopFatalBC).regs = s.regs := rfl
@[simp] theorem State.stopFatalBC_pc : (s.stopFatalBC).pc = s.pc := rfl
@[simp] theorem State.stopFatalBC_ia : (s.stopFatalBC).ia = s.ia := rfl
@[simp] theorem State.stopFatalBC_cc : (s.stopFatalBC).cc = s.cc := rfl
@[simp] theorem State.stopFatalBC_halted : (s.stopFatalBC).halted = s.halted := rfl
@[simp] theorem State.stopFatalBC_status : (s.stopFatalBC).status = .fatalBC := rfl
@[simp] theorem State.stopFatalBC_mem : (s.stopFatalBC).mem = s.mem := rfl
@[simp] theorem State.stopFatalBC_cache : (s.stopFatalBC).cache = s.cache := rfl
@[simp] theorem State.stopFatalBC_tally : (s.stopFatalBC).tally = s.tally := rfl
@[simp] theorem State.stopFatalBC_record : (s.stopFatalBC).record = s.record := rfl
@[simp] theorem State.stopFatalBC_events : (s.stopFatalBC).events = s.events ++ [s.dumpEvent] := rfl

/-! ### cacheAccess -/

@[simp] theorem State.cacheAccess_regs (a : Nat) : (s.cacheAccess a).regs = s.regs := rfl
@[simp] theorem State.cacheAccess_pc (a : Nat) : (s.cacheAccess a).pc = s.pc := rfl
@[simp] theorem State.cacheAccess_ia (a : Nat) : (s.cacheAccess a).ia = s.ia := rfl
@[simp] theorem State.cacheAccess_cc (a : Nat) : (s.cacheAccess a).cc = s.cc := rfl
@[simp] theorem State.cacheAccess_halted (a : Nat) : (s.cacheAccess a).halted = s.halted := rfl
@[simp] theorem State.cacheAccess_status (a : Nat) : (s.cacheAccess a).status = s.status := rfl
@[simp] theorem State.cacheAccess_mem (a : Nat) : (s.cacheAccess a).mem = s.mem := rfl
@[simp] theorem State.cacheAccess_cache (a : Nat) : (s.cacheAccess a).cache = s.cache.access a := rfl
@[simp] theorem State.cacheAccess_tally (a : Nat) : (s.cacheAccess a).tally = s.tally.countCache (s.cache.hitBank a).isSome := rfl
@[simp] theorem State.cacheAccess_record (a : Nat) : (s.cacheAccess a).record = s.record := rfl
@[simp] theorem State.cacheAccess_events (a : Nat) : (s.cacheAccess a).events = s.events := rfl

/-! ### The end of a cycle -/

/-- A cycle that ends in `running` emits its trace. -/
theorem State.endCycle_running (h : s.status = .running) : s.endCycle = s.emit s.traceEvent := by
  simp [State.endCycle, h]

/-- A cycle that ends in a terminal status emits nothing. -/
theorem State.endCycle_terminal (h : s.status ≠ .running) : s.endCycle = s := by
  simp [State.endCycle, h]

@[simp] theorem State.endCycle_regs : s.endCycle.regs = s.regs := by
  unfold State.endCycle; split <;> rfl
@[simp] theorem State.endCycle_pc : s.endCycle.pc = s.pc := by
  unfold State.endCycle; split <;> rfl
@[simp] theorem State.endCycle_ia : s.endCycle.ia = s.ia := by
  unfold State.endCycle; split <;> rfl
@[simp] theorem State.endCycle_cc : s.endCycle.cc = s.cc := by
  unfold State.endCycle; split <;> rfl
@[simp] theorem State.endCycle_halted : s.endCycle.halted = s.halted := by
  unfold State.endCycle; split <;> rfl
@[simp] theorem State.endCycle_status : s.endCycle.status = s.status := by
  unfold State.endCycle; split <;> rfl
@[simp] theorem State.endCycle_mem : s.endCycle.mem = s.mem := by
  unfold State.endCycle; split <;> rfl
@[simp] theorem State.endCycle_cache : s.endCycle.cache = s.cache := by
  unfold State.endCycle; split <;> rfl
@[simp] theorem State.endCycle_tally : s.endCycle.tally = s.tally := by
  unfold State.endCycle; split <;> rfl
@[simp] theorem State.endCycle_record : s.endCycle.record = s.record := by
  unfold State.endCycle; split <;> rfl

/-! ### Registers -/

/-- A register reads as it was written. -/
@[simp] theorem State.reg_setReg_same (r : Nibble) (v : Word) : (s.setReg r v).reg r = v := by
  simp [State.reg]

/-- Writing a register leaves every other one. -/
theorem State.reg_setReg_other {q r : Nibble} (v : Word) (h : q ≠ r) : (s.setReg r v).reg q = s.reg q := by
  have h' : r.toNat ≠ q.toNat := fun e => h (BitVec.eq_of_toNat_eq e.symm)
  simp [State.reg, Vector.getElem_set_ne _ _ h']

/-- A register's value depends on the register file alone. -/
theorem State.reg_congr {t : State} (h : t.regs = s.regs) (q : Nibble) : t.reg q = s.reg q := by
  unfold State.reg; rw [h]

/-- A byte's value depends on memory alone. -/
theorem State.readByte_congr {t : State} (h : t.mem = s.mem) (a : Nat) : t.readByte a = s.readByte a := by
  unfold State.readByte; rw [h]

/-- Two register files that agree on every register are equal. -/
theorem State.regs_ext {s t : State} (h : ∀ q, s.reg q = t.reg q) : s.regs = t.regs := by
  refine Vector.ext fun i hi => ?_
  simpa [State.reg, BitVec.toNat_ofNat, Nat.mod_eq_of_lt hi] using h (BitVec.ofNat 4 i)

@[simp] theorem State.readByte_setReg (r : Nibble) (v : Word) (q : Nat) : (s.setReg r v).readByte q = s.readByte q := rfl
@[simp] theorem State.reg_setCc (v : CondCode) (q : Nibble) : (s.setCc v).reg q = s.reg q := rfl
@[simp] theorem State.readByte_setCc (v : CondCode) (q : Nat) : (s.setCc v).readByte q = s.readByte q := rfl
@[simp] theorem State.reg_writeBytes (a : Nat) (bs : List Byte) (q : Nibble) : (s.writeBytes a bs).reg q = s.reg q := rfl
@[simp] theorem State.reg_countExec (m : Op) (q : Nibble) : (s.countExec m).reg q = s.reg q := rfl
@[simp] theorem State.readByte_countExec (m : Op) (q : Nat) : (s.countExec m).readByte q = s.readByte q := rfl
@[simp] theorem State.reg_countRead (q : Nibble) : (s.countRead).reg q = s.reg q := rfl
@[simp] theorem State.readByte_countRead (q : Nat) : (s.countRead).readByte q = s.readByte q := rfl
@[simp] theorem State.reg_countWrite (q : Nibble) : (s.countWrite).reg q = s.reg q := rfl
@[simp] theorem State.readByte_countWrite (q : Nat) : (s.countWrite).readByte q = s.readByte q := rfl
@[simp] theorem State.reg_countTakenBct (q : Nibble) : (s.countTakenBct).reg q = s.reg q := rfl
@[simp] theorem State.readByte_countTakenBct (q : Nat) : (s.countTakenBct).readByte q = s.readByte q := rfl
@[simp] theorem State.reg_countTakenBc (q : Nibble) : (s.countTakenBc).reg q = s.reg q := rfl
@[simp] theorem State.readByte_countTakenBc (q : Nat) : (s.countTakenBc).readByte q = s.readByte q := rfl
@[simp] theorem State.reg_decodeAdvance (d : Decoded) (q : Nibble) : (s.decodeAdvance d).reg q = s.reg q := rfl
@[simp] theorem State.readByte_decodeAdvance (d : Decoded) (q : Nat) : (s.decodeAdvance d).readByte q = s.readByte q := rfl
@[simp] theorem State.reg_branchTo (a : Nat) (q : Nibble) : (s.branchTo a).reg q = s.reg q := rfl
@[simp] theorem State.readByte_branchTo (a : Nat) (q : Nat) : (s.branchTo a).readByte q = s.readByte q := rfl
@[simp] theorem State.reg_emit (e : Event) (q : Nibble) : (s.emit e).reg q = s.reg q := rfl
@[simp] theorem State.readByte_emit (e : Event) (q : Nat) : (s.emit e).readByte q = s.readByte q := rfl
@[simp] theorem State.reg_takeFault (f : Fault) (q : Nibble) : (s.takeFault f).reg q = s.reg q := rfl
@[simp] theorem State.readByte_takeFault (f : Fault) (q : Nat) : (s.takeFault f).readByte q = s.readByte q := rfl
@[simp] theorem State.reg_stopHalted (q : Nibble) : (s.stopHalted).reg q = s.reg q := rfl
@[simp] theorem State.readByte_stopHalted (q : Nat) : (s.stopHalted).readByte q = s.readByte q := rfl
@[simp] theorem State.reg_stopFatalBC (q : Nibble) : (s.stopFatalBC).reg q = s.reg q := rfl
@[simp] theorem State.readByte_stopFatalBC (q : Nat) : (s.stopFatalBC).readByte q = s.readByte q := rfl
@[simp] theorem State.reg_cacheAccess (a : Nat) (q : Nibble) : (s.cacheAccess a).reg q = s.reg q := rfl
@[simp] theorem State.readByte_cacheAccess (a : Nat) (q : Nat) : (s.cacheAccess a).readByte q = s.readByte q := rfl
@[simp] theorem State.reg_endCycle (q : Nibble) : s.endCycle.reg q = s.reg q :=
  State.reg_congr s s.endCycle_regs q
@[simp] theorem State.readByte_endCycle (q : Nat) : s.endCycle.readByte q = s.readByte q :=
  State.readByte_congr s s.endCycle_mem q

/-! ### Tallies -/

/-- One opcode's tally counts, the others stay (R114). -/
theorem OpTally.get_bump (t : OpTally) (m n : Op) :
    (t.bump m).get n = if n = m then t.get n + 1 else t.get n := by
  cases m <;> cases n <;> rfl

/-- What counting an access does to the tallies: the hits or the misses, nothing else (R60, R63). -/
theorem Tallies.countCache_eq (t : Tallies) (hit : Bool) :
    t.countCache hit = { t with cacheHits := t.cacheHits + (if hit then 1 else 0),
                                cacheMisses := t.cacheMisses + (if hit then 0 else 1) } := by
  cases hit <;> rfl

/-- An access counts as one hit or one miss (R60). -/
theorem Tallies.countCache_total (t : Tallies) (hit : Bool) :
    (t.countCache hit).cacheHits + (t.countCache hit).cacheMisses = t.cacheHits + t.cacheMisses + 1 := by
  cases hit <;> simp [Tallies.countCache] <;> omega

end Sys2Proof.Machine
end

