-- ==== Sys2Proof/Laws/Cache.lean ====
section
/-!
SUPPORT. The laws of the cache arrays and of one access, said once.
-/

namespace Sys2Proof.Machine

@[simp] theorem Cache.setLine_acc (c : Cache) (b : Bank) (i : Fin 16) (v : Line) :
    (c.setLine b i v).acc = c.acc := by cases b <;> rfl

@[simp] theorem Cache.tick_acc (c : Cache) : c.tick.acc = c.acc + 1 := rfl

@[simp] theorem Cache.tick_line (c : Cache) (b : Bank) (i : Fin 16) : c.tick.line b i = c.line b i := by
  cases b <;> rfl

@[simp] theorem Cache.tick_hitBank (c : Cache) (a : Nat) : c.tick.hitBank a = c.hitBank a := by
  simp [Cache.hitBank]

@[simp] theorem Cache.tick_victim (c : Cache) (i : Fin 16) : c.tick.victim i = c.victim i := by
  simp [Cache.victim]

/-- A line after one line is written: that line, or the old one. -/
theorem Cache.line_setLine (c : Cache) (b b' : Bank) (i i' : Fin 16) (v : Line) :
    (c.setLine b i v).line b' i' = if b' = b ∧ i' = i then v else c.line b' i' := by
  by_cases hi : i' = i
  · subst hi
    cases b <;> cases b' <;> simp [Cache.setLine, Cache.line]
  · have h : i.val ≠ i'.val := fun e => hi (Fin.ext e.symm)
    cases b <;> cases b' <;> simp [Cache.setLine, Cache.line, hi, Vector.getElem_set_ne _ _ h]

/-- What an access does (R60): `acc` counts, and one line of the address's set is written: on a hit the
bank that hits, restamped, on a miss the victim, with the tag installed. -/
theorem Cache.access_cases (c : Cache) (a : Nat) :
    (∃ b, c.hitBank a = some b ∧
      c.access a = c.tick.setLine b (setIndex a)
        { valid := (c.line b (setIndex a)).valid, tag := (c.line b (setIndex a)).tag, recency := c.acc + 1 }) ∨
    (c.hitBank a = none ∧
      c.access a = c.tick.setLine (c.victim (setIndex a)) (setIndex a)
        { valid := true, tag := tagOf a, recency := c.acc + 1 }) := by
  unfold Cache.access
  cases h : c.hitBank a with
  | some b => exact .inl ⟨b, rfl, by simp [h, Cache.touch]⟩
  | none => exact .inr ⟨rfl, by simp [h, Cache.install]⟩

/-- An access counts once in `acc` (R60). -/
@[simp] theorem Cache.access_acc (c : Cache) (a : Nat) : (c.access a).acc = c.acc + 1 := by
  obtain ⟨b, _, e⟩ | ⟨_, e⟩ := c.access_cases a <;> simp [e]

/-- A bank that hits holds a valid line with the tag (R60). -/
theorem Cache.hitBank_some {c : Cache} {a : Nat} {b : Bank} (h : c.hitBank a = some b) :
    (c.line b (setIndex a)).valid = true ∧ (c.line b (setIndex a)).tag = tagOf a := by
  simp only [Cache.hitBank, Line.hits, Bool.and_eq_true, beq_iff_eq] at h
  split at h
  · next h0 => cases h; exact h0
  · split at h
    · next h1 => cases h; exact h1
    · cases h

/-- A miss: no valid line of the set holds the tag (R60). -/
theorem Cache.hitBank_none {c : Cache} {a : Nat} (h : c.hitBank a = none) (b : Bank)
    (hv : (c.line b (setIndex a)).valid = true) : (c.line b (setIndex a)).tag ≠ tagOf a := by
  intro ht
  have hb : (c.line b (setIndex a)).hits (tagOf a) = true := by simp [Line.hits, hv, ht]
  unfold Cache.hitBank at h
  cases b with
  | bank0 => simp [hb] at h
  | bank1 =>
    rw [hb] at h
    split at h <;> simp at h

end Sys2Proof.Machine
end

