-- ==== Sys2Proof/Laws/Decode.lean ====
section
/-!
SUPPORT. The laws of the fields: putting nibbles and displacement together and taking them apart.
-/

namespace Sys2Proof

@[simp] theorem hi4_byteOf (h l : Nibble) : hi4 (byteOf h l) = h := by
  revert h l; decide

@[simp] theorem lo4_byteOf (h l : Nibble) : lo4 (byteOf h l) = l := by
  revert h l; decide

@[simp] theorem byteOf_hi4_lo4 (b : Byte) : byteOf (hi4 b) (lo4 b) = b := by
  revert b; decide

/-- The displacement's two parts give it back (R84). -/
@[simp] theorem dispOf_parts (x : Nibble) (d2 : Disp) :
    dispOf (byteOf x (d2.extractLsb' 8 4)) (d2.extractLsb' 0 8) = d2 := by
  simp only [dispOf, lo4_byteOf]
  refine BitVec.eq_of_getLsbD_eq fun i hi => ?_
  rw [BitVec.getLsbD_append]
  by_cases h : i < 8
  · simp [h]
  · simp [h, show i - 8 < 4 by omega, show 8 + (i - 8) = i by omega]

/-- `hi4` as a number. -/
theorem hi4_toNat (b : Byte) : (hi4 b).toNat = b.toNat / 16 := by
  revert b; decide

/-- `lo4` as a number. -/
theorem lo4_toNat (b : Byte) : (lo4 b).toNat = b.toNat % 16 := by
  revert b; decide

/-- The length of a format's instruction is at least 1 and at most 4 (R86). -/
theorem Format.length_bounds (f : Format) : 1 ≤ f.length ∧ f.length ≤ 4 := by
  cases f <;> decide

/-- The IA advances by at most 4095 (R87). -/
theorem Decoded.iaAdvance_le (d : Decoded) : d.iaAdvance ≤ 4095 := by
  unfold Decoded.iaAdvance rxIaAdvance maxDisp
  split <;> split <;> omega

/-- The displacement's value: the earlier byte's low nibble in the high bits (R84). -/
theorem dispOf_toNat (b2 b3 : Byte) : (dispOf b2 b3).toNat = b2.toNat % 16 * 256 + b3.toNat := by
  simp only [dispOf, BitVec.toNat_append, lo4_toNat]
  rw [← Nat.shiftLeft_add_eq_or_of_lt b3.isLt, Nat.shiftLeft_eq]

/-- The IA's advance for RX, in numbers (R87). -/
theorem rxIaAdvance_eq (d2 : Disp) : rxIaAdvance d2 = if d2.toNat = 4095 then 4095 else 4 := rfl

/-- A byte's class as its high nibble. -/
theorem hi4_eq_iff (b : Byte) (k : Nibble) : hi4 b = k ↔ b.toNat / 16 = k.toNat := by
  rw [← hi4_toNat]
  exact ⟨fun e => by rw [e], fun e => BitVec.eq_of_toNat_eq e⟩

/-- A byte of the RX class is neither a halt form nor RR (R84). -/
theorem hi4_of_rx {b : Byte} (h : 2 ≤ b.toNat / 16) : hi4 b ≠ 0#4 ∧ hi4 b ≠ 1#4 := by
  constructor <;> intro e <;> have := (hi4_eq_iff _ _).1 e <;> simp at this <;> omega

/-- What `recordRR` gives, whatever the byte: an RR record with the R2 field as its effective address (R83). -/
theorem recordRR_fields (om : OpMap) (op : Byte) (r1 r2 : Nibble) :
    (recordRR om op r1 r2).format = .rr ∧ (recordRR om op r1 r2).disp = none ∧
      (recordRR om op r1 r2).ea = some r2.toNat := by
  unfold recordRR
  repeat' split
  all_goals exact ⟨rfl, rfl, rfl⟩

/-- What `recordRX` gives, whatever the byte: an RX record with the raw sum as its effective address (R85). -/
theorem recordRX_fields (om : OpMap) (op : Byte) (r1 x2 b2 : Nibble) (d2 : Disp) :
    (recordRX om op r1 x2 b2 d2).format = .rx ∧ (recordRX om op r1 x2 b2 d2).disp = some d2 ∧
      (recordRX om op r1 x2 b2 d2).ea = some (rxEa x2 b2 d2) := by
  unfold recordRX
  repeat' split
  all_goals exact ⟨rfl, rfl, rfl⟩

/-! ### What `decode` answers, by the class of the first byte -/

theorem decode_nil (om : OpMap) : decode om [] = .error (.missingByte 0) := by
  simp [decode, decodeFrom, bind, Except.bind]

theorem decode_halt (om : OpMap) {op : Byte} (rest : List Byte) (h : op.toNat / 16 = 0) :
    decode om (op :: rest) = .ok (.instr (.halt (lo4 op))) := by
  have e : hi4 op = 0#4 := (hi4_eq_iff _ _).2 h
  simp [decode, decodeFrom, e, bind, Except.bind, pure, Except.pure]

theorem decode_rr (om : OpMap) {op : Byte} (b1 : Byte) (rest : List Byte) (h : op.toNat / 16 = 1) :
    decode om (op :: b1 :: rest) = .ok (recordRR om op (hi4 b1) (lo4 b1)) := by
  have e : hi4 op = 1#4 := (hi4_eq_iff _ _).2 h
  simp [decode, decodeFrom, e, bind, Except.bind, pure, Except.pure]

theorem decode_rr_short (om : OpMap) {op : Byte} (h : op.toNat / 16 = 1) :
    decode om [op] = .error (.missingByte 1) := by
  have e : hi4 op = 1#4 := (hi4_eq_iff _ _).2 h
  simp [decode, decodeFrom, e, bind, Except.bind]

theorem decode_rx (om : OpMap) {op : Byte} (b1 b2 b3 : Byte) (rest : List Byte) (h : 2 ≤ op.toNat / 16) :
    decode om (op :: b1 :: b2 :: b3 :: rest) =
      .ok (recordRX om op (hi4 b1) (lo4 b1) (hi4 b2) (dispOf b2 b3)) := by
  obtain ⟨h0, h1⟩ := hi4_of_rx h
  simp [decode, decodeFrom, h0, h1, bind, Except.bind, pure, Except.pure]

theorem decode_rx_short (om : OpMap) {op : Byte} (tail : List Byte) (h : 2 ≤ op.toNat / 16)
    (ht : tail.length < 3) : decode om (op :: tail) = .error (.missingByte (tail.length + 1)) := by
  obtain ⟨h0, h1⟩ := hi4_of_rx h
  match tail, ht with
  | [], _ => simp [decode, decodeFrom, h0, h1, bind, Except.bind]
  | [_], _ => simp [decode, decodeFrom, h0, h1, bind, Except.bind]
  | [_, _], _ => simp [decode, decodeFrom, h0, h1, bind, Except.bind]

end Sys2Proof
end

