-- ==== Sys2Proof/Laws/Memory.lean ====
section
/-!
SUPPORT. The laws of memory: every operation keeps the canonical form, a byte reads as it was written, and
a write leaves every other byte.
-/

namespace Sys2Proof.Machine

/-- A canonical memory from `hi` on is canonical from any lower address on. -/
theorem Memory.wfFrom_mono {m : Memory} {lo hi : Nat} (h : lo ≤ hi) (hm : Memory.wfFrom hi m = true) :
    Memory.wfFrom lo m = true := by
  cases m with
  | nil => rfl
  | cons c rest =>
    simp only [Memory.wfFrom, Bool.and_eq_true, decide_eq_true_eq] at hm ⊢
    exact ⟨⟨⟨by omega, hm.1.1.2⟩, hm.1.2⟩, hm.2⟩

/-- An address below a canonical memory's first one reads as an unlisted address. -/
theorem Memory.read_below {m : Memory} {lo q : Nat} (hm : Memory.wfFrom lo m = true) (h : q < lo) :
    m.read q = unlistedByte := by
  induction m generalizing lo with
  | nil => rfl
  | cons c rest ih =>
    simp only [Memory.wfFrom, Bool.and_eq_true, decide_eq_true_eq] at hm
    simp only [Memory.read]
    rw [if_neg (by omega)]
    exact ih hm.2 (by omega)

/-- Writing keeps the canonical form from a lower bound on. -/
theorem Memory.write_wfFrom {m : Memory} {lo q : Nat} (v : Byte) (hm : Memory.wfFrom lo m = true)
    (h : lo ≤ q) (hq : q < memSize) : Memory.wfFrom lo (m.write q v) = true := by
  induction m generalizing lo with
  | nil => unfold Memory.write; split <;> simp_all [Memory.wfFrom]
  | cons c rest ih =>
    obtain ⟨a, b⟩ := c
    have hc := hm
    simp only [Memory.wfFrom, Bool.and_eq_true, decide_eq_true_eq] at hm
    simp only [Memory.write]
    by_cases h1 : q < a
    · rw [if_pos h1]
      split
      · exact hc
      · simp_all [Memory.wfFrom]
    · rw [if_neg h1]
      by_cases h2 : q = a
      · rw [if_pos h2]
        split
        · exact Memory.wfFrom_mono (by omega) hm.2
        · simp_all [Memory.wfFrom]
      · rw [if_neg h2]
        simp only [Memory.wfFrom, Bool.and_eq_true, decide_eq_true_eq]
        exact ⟨hm.1, ih hm.2 (by omega)⟩

/-- `Memory.write` keeps the canonical form. -/
theorem Memory.write_wf {m : Memory} {q : Nat} (v : Byte) (hm : m.wf = true) (hq : q < memSize) :
    (m.write q v).wf = true :=
  Memory.write_wfFrom v hm (Nat.zero_le q) hq

/-- `Memory.writeBytes` keeps the canonical form. -/
theorem Memory.writeBytes_wf {m : Memory} {a : Nat} (bs : List Byte) (hm : m.wf = true)
    (h : a + bs.length ≤ memSize) : (m.writeBytes a bs).wf = true := by
  induction bs generalizing m a with
  | nil => exact hm
  | cons b bs ih =>
    simp only [List.length_cons] at h
    exact ih (Memory.write_wf b hm (by omega)) (by omega)

/-- The memory after reset is canonical. -/
theorem State.reset_mem_wf : State.reset.mem.wf = true := rfl

/-- Writing one byte leaves every other one. -/
theorem Memory.read_write_other (m : Memory) {q p : Nat} (v : Byte) (h : p ≠ q) :
    (m.write q v).read p = m.read p := by
  induction m with
  | nil => unfold Memory.write; split <;> simp [Memory.read, h]
  | cons c rest ih =>
    obtain ⟨a, b⟩ := c
    simp only [Memory.write]
    split
    · split <;> simp [Memory.read, h]
    · split
      · next h2 => split <;> simp [Memory.read, ← h2, h]
      · simp [Memory.read, ih]

/-- A byte reads as it was written. -/
theorem Memory.read_write_same {m : Memory} {lo q : Nat} (v : Byte) (hm : Memory.wfFrom lo m = true) :
    (m.write q v).read q = v := by
  induction m generalizing lo with
  | nil => unfold Memory.write; split <;> simp_all [Memory.read]
  | cons c rest ih =>
    obtain ⟨a, b⟩ := c
    simp only [Memory.wfFrom, Bool.and_eq_true, decide_eq_true_eq] at hm
    simp only [Memory.write]
    split
    · next h1 =>
      split
      · next hv =>
        simp only [Memory.read]
        rw [if_neg (by omega), hv]
        exact Memory.read_below hm.2 (by omega)
      · simp [Memory.read]
    · split
      · next h2 =>
        split
        · next hv =>
          rw [hv, h2]
          exact Memory.read_below hm.2 (by omega)
        · simp [Memory.read]
      · next h2 =>
        simp only [Memory.read]
        rw [if_neg h2]
        exact ih hm.2

/-- Writing bytes leaves every byte outside them. -/
theorem Memory.read_writeBytes_outside (m : Memory) (a : Nat) (bs : List Byte) {p : Nat}
    (h : p < a ∨ a + bs.length ≤ p) : (m.writeBytes a bs).read p = m.read p := by
  induction bs generalizing m a with
  | nil => rfl
  | cons b bs ih =>
    simp only [List.length_cons] at h
    simp only [Memory.writeBytes]
    rw [ih _ _ (by omega), Memory.read_write_other _ _ (by omega)]

/-- The bytes written read back. -/
theorem Memory.read_writeBytes_inside {m : Memory} {a : Nat} (bs : List Byte) (hm : m.wf = true)
    (h : a + bs.length ≤ memSize) {k : Nat} (hk : k < bs.length) :
    (m.writeBytes a bs).read (a + k) = bs[k] := by
  induction bs generalizing m a k with
  | nil => simp at hk
  | cons b bs ih =>
    simp only [List.length_cons] at h hk
    simp only [Memory.writeBytes]
    cases k with
    | zero =>
      rw [Memory.read_writeBytes_outside _ _ _ (by omega)]
      exact Memory.read_write_same b hm
    | succ k =>
      have := ih (m := m.write a b) (a := a + 1) (Memory.write_wf b hm (by omega)) (by omega) (k := k) (by omega)
      simpa [Nat.add_assoc, Nat.add_comm 1 k] using this

end Sys2Proof.Machine
end

