-- ==== Sys2Proof/Laws/Ops.lean ====
section
/-!
SUPPORT. What each shared operation of a cycle can do, said once: the range check, the fetch, the frame of
a cycle, and the handlers that can fault or branch.
-/

namespace Sys2Proof.Machine

/-- A range check passes exactly in range (R54). -/
theorem checkRange_ok {a n : Nat} (h : a + n ≤ memSize) : checkRange a n = .ok () := by
  simp [checkRange, h]

/-- A range check fails exactly out of range, with the address and the width (R201). -/
theorem checkRange_error {a n : Nat} (h : memSize < a + n) : checkRange a n = .error (.dataOutOfRange a n) := by
  simp [checkRange, Nat.not_le.mpr h]

/-- A fetch in memory gives the byte, whatever the cache holds (R80). -/
theorem State.fetch8_ok (s : State) {a : Nat} (h : a < memSize) : s.fetch8 a = .ok (s.readByte a) := by
  simp [State.fetch8, h]

/-- A fetch beyond memory faults (R200). -/
theorem State.fetch8_error (s : State) {a : Nat} (h : memSize ≤ a) :
    s.fetch8 a = .error (.fetchOutOfRange a) := by
  simp [State.fetch8, Nat.not_lt.mpr h]

/-- What a cycle can do: the handler's state, ended, or the state at the start with a fault taken (R110,
R111). -/
theorem runCycle_cases {i : Instr} {h : State → Except Fault State} {s t : State}
    (ht : runCycle i h s = .next t) :
    (∃ u, h (s.decodeAdvance (.instr i)) = .ok u ∧ t = u.endCycle) ∨
    (∃ f, h (s.decodeAdvance (.instr i)) = .error f ∧ t = s.takeFault f) := by
  unfold runCycle at ht
  split at ht
  · next u hu => exact .inl ⟨u, hu, (Host.Outcome.next.inj ht).symm⟩
  · next f hf => exact .inr ⟨f, hf, (Host.Outcome.next.inj ht).symm⟩

/-- A cycle whose handler answers a state. -/
theorem runCycle_ok {i : Instr} {h : State → Except Fault State} {s u : State}
    (hu : h (s.decodeAdvance (.instr i)) = .ok u) : runCycle i h s = .next u.endCycle := by
  simp [runCycle, hu]

/-- A cycle whose handler raises a fault. -/
theorem runCycle_error {i : Instr} {h : State → Except Fault State} {s : State} {f : Fault}
    (hf : h (s.decodeAdvance (.instr i)) = .error f) : runCycle i h s = .next (s.takeFault f) := by
  simp [runCycle, hf]

end Sys2Proof.Machine
end

