-- ==== Sys2Proof/Laws/Meanings.lean ====
section
/-!
SUPPORT. What each meaning can do, said once: the handlers that branch or can fault, then `exec`, so that a
proof over every instruction cites `exec_cases` and unfolds no meaning.
-/

namespace Sys2Proof.Machine

/-- BCT's handler: taken while the decremented register is not zero (R155). -/
theorem handleBct_cases (r1 x2 b2 : Nibble) (d2 : Disp) (s : State) :
    (s.reg r1 - 1#32 ≠ 0#32 ∧ handleBct r1 x2 b2 d2 s =
      .ok (((s.setReg r1 (s.reg r1 - 1#32)).branchTo (rxEa x2 b2 d2)).countTakenBct)) ∨
    (s.reg r1 - 1#32 = 0#32 ∧ handleBct r1 x2 b2 d2 s = .ok (s.setReg r1 (s.reg r1 - 1#32))) := by
  unfold handleBct
  by_cases h : s.reg r1 - 1#32 = 0#32
  · exact .inr ⟨h, by simp [h]⟩
  · exact .inl ⟨h, by simp [h]⟩

/-- BC's handler: the fatal check first, then the mask (R160). -/
theorem handleBc_cases (m1 x2 b2 : Nibble) (d2 : Disp) (s : State) :
    (4095 < s.ia ∧ handleBc m1 x2 b2 d2 s = .ok s.stopFatalBC) ∨
    (s.ia ≤ 4095 ∧ bcTaken m1 s.cc = true ∧ handleBc m1 x2 b2 d2 s =
      .ok ((s.branchTo (rxEa x2 b2 d2)).countTakenBc)) ∨
    (s.ia ≤ 4095 ∧ bcTaken m1 s.cc = false ∧ handleBc m1 x2 b2 d2 s = .ok s) := by
  unfold handleBc iaLimit
  by_cases h : s.ia > 4095
  · exact .inl ⟨h, if_pos h⟩
  · cases hb : bcTaken m1 s.cc
    · exact .inr (.inr ⟨by omega, rfl, by simp [h]⟩)
    · exact .inr (.inl ⟨by omega, rfl, by simp [h]⟩)

/-- ST's handler: in range it accesses the cache, stores and counts; out of range it faults (R170). -/
theorem handleSt_cases (r1 x2 b2 : Nibble) (d2 : Disp) (s : State) :
    ((stAccess s r1 x2 b2 d2).store + (stAccess s r1 x2 b2 d2).bytes.length ≤ 4096 ∧
      handleSt r1 x2 b2 d2 s =
        .ok (((s.cacheAccess (stAccess s r1 x2 b2 d2).cache).writeBytes (stAccess s r1 x2 b2 d2).store
          (stAccess s r1 x2 b2 d2).bytes).countWrite)) ∨
    (4096 < (stAccess s r1 x2 b2 d2).store + (stAccess s r1 x2 b2 d2).bytes.length ∧
      handleSt r1 x2 b2 d2 s =
        .error (.dataOutOfRange (stAccess s r1 x2 b2 d2).store (stAccess s r1 x2 b2 d2).bytes.length)) := by
  unfold handleSt
  simp only [bind, Except.bind, pure, Except.pure]
  by_cases h : (stAccess s r1 x2 b2 d2).store + (stAccess s r1 x2 b2 d2).bytes.length ≤ 4096
  · rw [checkRange_ok h]
    exact .inl ⟨h, rfl⟩
  · rw [checkRange_error (by simp [memSize]; omega)]
    exact .inr ⟨by omega, rfl⟩

/-- L's handler: in range it accesses the cache, loads and counts; out of range it faults (R180). -/
theorem handleL_cases (r1 x2 b2 : Nibble) (d2 : Disp) (s : State) :
    (rxEa x2 b2 d2 ≤ 4092 ∧ handleL r1 x2 b2 d2 s =
      .ok (((s.cacheAccess (rxEa x2 b2 d2)).setReg r1 (s.readWord (rxEa x2 b2 d2))).countRead)) ∨
    (4092 < rxEa x2 b2 d2 ∧ handleL r1 x2 b2 d2 s = .error (.dataOutOfRange (rxEa x2 b2 d2) 4)) := by
  unfold handleL
  simp only [bind, Except.bind, pure, Except.pure]
  by_cases h : rxEa x2 b2 d2 + 4 ≤ 4096
  · rw [checkRange_ok h]
    exact .inl ⟨by omega, rfl⟩
  · rw [checkRange_error (by simp [memSize]; omega)]
    exact .inr ⟨by omega, rfl⟩

/-- C's handler: in range it accesses the cache, compares and counts; out of range it faults (R185). -/
theorem handleC_cases (r1 x2 b2 : Nibble) (d2 : Disp) (s : State) :
    (rxEa x2 b2 d2 ≤ 4092 ∧ handleC r1 x2 b2 d2 s =
      .ok (((s.cacheAccess (rxEa x2 b2 d2)).setCc
        (cmp3 (s.reg r1) (s.readWord (rxEa x2 b2 d2)))).countRead)) ∨
    (4092 < rxEa x2 b2 d2 ∧ handleC r1 x2 b2 d2 s = .error (.dataOutOfRange (rxEa x2 b2 d2) 4)) := by
  unfold handleC
  simp only [bind, Except.bind, pure, Except.pure]
  by_cases h : rxEa x2 b2 d2 + 4 ≤ 4096
  · rw [checkRange_ok h]
    exact .inl ⟨by omega, rfl⟩
  · rw [checkRange_error (by simp [memSize]; omega)]
    exact .inr ⟨by omega, rfl⟩

/-- `Ran s i u`: from the state `s` at the start of the cycle, the handler of `i` ends in `u`, before the
trace. One case for each way an instruction can complete, its guard and its updates. -/
inductive Ran (s : State) : Instr → State → Prop
  | lr (r1 r2) : Ran s (.lr r1 r2)
      (((s.decodeAdvance (.instr (.lr r1 r2))).countExec .lr).setReg r1 (s.reg r2))
  | cr (r1 r2) : Ran s (.cr r1 r2)
      (((s.decodeAdvance (.instr (.cr r1 r2))).countExec .cr).setCc (cmp3 (s.reg r1) (s.reg r2)))
  | ar (r1 r2) : Ran s (.ar r1 r2)
      ((((s.decodeAdvance (.instr (.ar r1 r2))).countExec .ar).setReg r1 (s.reg r1 + s.reg r2)).setCc
        (sign3 (s.reg r1 + s.reg r2)))
  | sr (r1 r2) : Ran s (.sr r1 r2)
      ((((s.decodeAdvance (.instr (.sr r1 r2))).countExec .sr).setReg r1 (s.reg r1 - s.reg r2)).setCc
        (sign3 (s.reg r1 - s.reg r2)))
  | la (r1 x2 b2 d2) : Ran s (.la r1 x2 b2 d2)
      (((s.decodeAdvance (.instr (.la r1 x2 b2 d2))).countExec .la).setReg r1 (zext32 d2))
  | bctTaken (r1 x2 b2 d2) (h : s.reg r1 - 1#32 ≠ 0#32) : Ran s (.bct r1 x2 b2 d2)
      (((((s.decodeAdvance (.instr (.bct r1 x2 b2 d2))).countExec .bct).setReg r1
        (s.reg r1 - 1#32)).branchTo (rxEa x2 b2 d2)).countTakenBct)
  | bctNotTaken (r1 x2 b2 d2) (h : s.reg r1 - 1#32 = 0#32) : Ran s (.bct r1 x2 b2 d2)
      (((s.decodeAdvance (.instr (.bct r1 x2 b2 d2))).countExec .bct).setReg r1 (s.reg r1 - 1#32))
  | bcFatal (m1 x2 b2 d2) (h : 4095 < s.ia + rxIaAdvance d2) : Ran s (.bc m1 x2 b2 d2)
      (((s.decodeAdvance (.instr (.bc m1 x2 b2 d2))).countExec .bc).stopFatalBC)
  | bcTaken (m1 x2 b2 d2) (h : s.ia + rxIaAdvance d2 ≤ 4095) (ht : bcTaken m1 s.cc = true) :
      Ran s (.bc m1 x2 b2 d2)
      ((((s.decodeAdvance (.instr (.bc m1 x2 b2 d2))).countExec .bc).branchTo (rxEa x2 b2 d2)).countTakenBc)
  | bcNotTaken (m1 x2 b2 d2) (h : s.ia + rxIaAdvance d2 ≤ 4095) (ht : bcTaken m1 s.cc = false) :
      Ran s (.bc m1 x2 b2 d2) ((s.decodeAdvance (.instr (.bc m1 x2 b2 d2))).countExec .bc)
  | st (r1 x2 b2 d2)
      (h : (stAccess s r1 x2 b2 d2).store + (stAccess s r1 x2 b2 d2).bytes.length ≤ 4096) :
      Ran s (.st r1 x2 b2 d2)
      (((((s.decodeAdvance (.instr (.st r1 x2 b2 d2))).countExec .st).cacheAccess
        (stAccess s r1 x2 b2 d2).cache).writeBytes (stAccess s r1 x2 b2 d2).store
        (stAccess s r1 x2 b2 d2).bytes).countWrite)
  | l (r1 x2 b2 d2) (h : rxEa x2 b2 d2 ≤ 4092) : Ran s (.l r1 x2 b2 d2)
      (((((s.decodeAdvance (.instr (.l r1 x2 b2 d2))).countExec .l).cacheAccess (rxEa x2 b2 d2)).setReg r1
        (s.readWord (rxEa x2 b2 d2))).countRead)
  | c (r1 x2 b2 d2) (h : rxEa x2 b2 d2 ≤ 4092) : Ran s (.c r1 x2 b2 d2)
      (((((s.decodeAdvance (.instr (.c r1 x2 b2 d2))).countExec .c).cacheAccess (rxEa x2 b2 d2)).setCc
        (cmp3 (s.reg r1) (s.readWord (rxEa x2 b2 d2)))).countRead)
  | halt (g) : Ran s (.halt g) (s.decodeAdvance (.instr (.halt g))).stopHalted

/-- What `exec` can do: the handler ends in a state of `Ran` and the cycle is ended, or ST, L or C raises
DataOutOfRange and the state at the start of the cycle takes it. -/
theorem exec_cases (i : Instr) (s : State) :
    (∃ u, Ran s i u ∧ exec i s = .next u.endCycle) ∨
    (∃ a n, 4096 < a + n ∧ (i.op = some .st ∨ i.op = some .l ∨ i.op = some .c) ∧
      exec i s = .next (s.takeFault (.dataOutOfRange a n))) := by
  cases i with
  | lr r1 r2 => exact .inl ⟨_, .lr .., rfl⟩
  | cr r1 r2 => exact .inl ⟨_, .cr .., rfl⟩
  | ar r1 r2 => exact .inl ⟨_, .ar .., rfl⟩
  | sr r1 r2 => exact .inl ⟨_, .sr .., rfl⟩
  | la r1 x2 b2 d2 => exact .inl ⟨_, .la .., rfl⟩
  | bct r1 x2 b2 d2 =>
    obtain ⟨h, e⟩ | ⟨h, e⟩ :=
      handleBct_cases r1 x2 b2 d2 ((s.decodeAdvance (.instr (.bct r1 x2 b2 d2))).countExec .bct)
    · exact .inl ⟨_, .bctTaken _ _ _ _ h, runCycle_ok (h := fun v => handleBct r1 x2 b2 d2 (v.countExec .bct)) e⟩
    · exact .inl ⟨_, .bctNotTaken _ _ _ _ h, runCycle_ok (h := fun v => handleBct r1 x2 b2 d2 (v.countExec .bct)) e⟩
  | bc m1 x2 b2 d2 =>
    obtain ⟨h, e⟩ | ⟨h, ht, e⟩ | ⟨h, ht, e⟩ :=
      handleBc_cases m1 x2 b2 d2 ((s.decodeAdvance (.instr (.bc m1 x2 b2 d2))).countExec .bc)
    · exact .inl ⟨_, .bcFatal _ _ _ _ h, runCycle_ok (h := fun v => handleBc m1 x2 b2 d2 (v.countExec .bc)) e⟩
    · exact .inl ⟨_, .bcTaken _ _ _ _ h ht, runCycle_ok (h := fun v => handleBc m1 x2 b2 d2 (v.countExec .bc)) e⟩
    · exact .inl ⟨_, .bcNotTaken _ _ _ _ h ht, runCycle_ok (h := fun v => handleBc m1 x2 b2 d2 (v.countExec .bc)) e⟩
  | st r1 x2 b2 d2 =>
    obtain ⟨h, e⟩ | ⟨h, e⟩ :=
      handleSt_cases r1 x2 b2 d2 ((s.decodeAdvance (.instr (.st r1 x2 b2 d2))).countExec .st)
    · exact .inl ⟨_, .st _ _ _ _ h, runCycle_ok (h := fun v => handleSt r1 x2 b2 d2 (v.countExec .st)) e⟩
    · exact .inr ⟨_, _, h, .inl rfl, runCycle_error (h := fun v => handleSt r1 x2 b2 d2 (v.countExec .st)) e⟩
  | l r1 x2 b2 d2 =>
    obtain ⟨h, e⟩ | ⟨h, e⟩ :=
      handleL_cases r1 x2 b2 d2 ((s.decodeAdvance (.instr (.l r1 x2 b2 d2))).countExec .l)
    · exact .inl ⟨_, .l _ _ _ _ h, runCycle_ok (h := fun v => handleL r1 x2 b2 d2 (v.countExec .l)) e⟩
    · exact .inr ⟨_, _, by omega, .inr (.inl rfl), runCycle_error (h := fun v => handleL r1 x2 b2 d2 (v.countExec .l)) e⟩
  | c r1 x2 b2 d2 =>
    obtain ⟨h, e⟩ | ⟨h, e⟩ :=
      handleC_cases r1 x2 b2 d2 ((s.decodeAdvance (.instr (.c r1 x2 b2 d2))).countExec .c)
    · exact .inl ⟨_, .c _ _ _ _ h, runCycle_ok (h := fun v => handleC r1 x2 b2 d2 (v.countExec .c)) e⟩
    · exact .inr ⟨_, _, by omega, .inr (.inr rfl), runCycle_error (h := fun v => handleC r1 x2 b2 d2 (v.countExec .c)) e⟩
  | halt g => exact .inl ⟨_, .halt .., rfl⟩

end Sys2Proof.Machine
end

