-- ==== Sys2Proof/Laws/PerInstr.lean ====
section
/-!
SUPPORT. One family of facts about every instruction as syntax: the shape of its encoding under any opcode
map that meets R11.
-/

namespace Sys2Proof

/-- The byte a well-formed map gives an RR opcode has high nibble 1 (R11 (i)). -/
theorem OpMap.wf_rr {om : OpMap} (h : om.wf = true) {m : Op} (hm : m ∈ rrOps) : (om m).toNat / 16 = 1 := by
  simp only [OpMap.wf, Bool.and_eq_true, List.all_eq_true] at h
  simpa using h.1.1 m hm

/-- The byte a well-formed map gives an RX opcode has high nibble 2 to 15 (R11 (ii)). -/
theorem OpMap.wf_rx {om : OpMap} (h : om.wf = true) {m : Op} (hm : m ∈ rxOps) : 2 ≤ (om m).toNat / 16 := by
  simp only [OpMap.wf, Bool.and_eq_true, List.all_eq_true] at h
  simpa using h.1.2 m hm

end Sys2Proof

namespace Sys2Proof.Laws.EncodingShape

/-- The encoding has the length of its format (R86), and the high nibble of its first byte is the class of
that format (R90, R94). -/
def Statement (i : Instr) : Prop :=
  ∀ om : OpMap, om.wf = true →
    (encode om i).length = i.format.length ∧
    (i.format = .halt → (Decoded.opcode om (.instr i)).toNat / 16 = 0) ∧
    (i.format = .rr → (Decoded.opcode om (.instr i)).toNat / 16 = 1) ∧
    (i.format = .rx → 2 ≤ (Decoded.opcode om (.instr i)).toNat / 16)

theorem lr (r1 r2 : Nibble) : Statement (.lr r1 r2) := fun om h =>
  ⟨rfl, nofun, fun _ => om.wf_rr h (m := .lr) (by decide), nofun⟩
theorem cr (r1 r2 : Nibble) : Statement (.cr r1 r2) := fun om h =>
  ⟨rfl, nofun, fun _ => om.wf_rr h (m := .cr) (by decide), nofun⟩
theorem ar (r1 r2 : Nibble) : Statement (.ar r1 r2) := fun om h =>
  ⟨rfl, nofun, fun _ => om.wf_rr h (m := .ar) (by decide), nofun⟩
theorem sr (r1 r2 : Nibble) : Statement (.sr r1 r2) := fun om h =>
  ⟨rfl, nofun, fun _ => om.wf_rr h (m := .sr) (by decide), nofun⟩
theorem la (r1 x2 b2 : Nibble) (d2 : Disp) : Statement (.la r1 x2 b2 d2) := fun om h =>
  ⟨rfl, nofun, nofun, fun _ => om.wf_rx h (m := .la) (by decide)⟩
theorem bct (r1 x2 b2 : Nibble) (d2 : Disp) : Statement (.bct r1 x2 b2 d2) := fun om h =>
  ⟨rfl, nofun, nofun, fun _ => om.wf_rx h (m := .bct) (by decide)⟩
theorem bc (m1 x2 b2 : Nibble) (d2 : Disp) : Statement (.bc m1 x2 b2 d2) := fun om h =>
  ⟨rfl, nofun, nofun, fun _ => om.wf_rx h (m := .bc) (by decide)⟩
theorem st (r1 x2 b2 : Nibble) (d2 : Disp) : Statement (.st r1 x2 b2 d2) := fun om h =>
  ⟨rfl, nofun, nofun, fun _ => om.wf_rx h (m := .st) (by decide)⟩
theorem l (r1 x2 b2 : Nibble) (d2 : Disp) : Statement (.l r1 x2 b2 d2) := fun om h =>
  ⟨rfl, nofun, nofun, fun _ => om.wf_rx h (m := .l) (by decide)⟩
theorem c (r1 x2 b2 : Nibble) (d2 : Disp) : Statement (.c r1 x2 b2 d2) := fun om h =>
  ⟨rfl, nofun, nofun, fun _ => om.wf_rx h (m := .c) (by decide)⟩
theorem halt (ignored : Nibble) : Statement (.halt ignored) := fun _ _ =>
  ⟨rfl, fun _ => by
    change (byteOf 0#4 ignored).toNat / 16 = 0
    revert ignored; decide, nofun, nofun⟩

end Sys2Proof.Laws.EncodingShape
end

