-- ==== Sys2Proof/Laws/RunLoop.lean ====
section
/-!
SUPPORT. What fetching and one iteration of the run loop can do, said once.
-/

namespace Sys2Proof.Machine

/-! ### Fetching, by the class of the opcode byte (R80) -/

theorem State.fetchDecode_halt (s : State) (om : OpMap) (hp : s.pc < memSize)
    (h : (s.readByte s.pc).toNat / 16 = 0) :
    s.fetchDecode om = .ok (.instr (.halt (lo4 (s.readByte s.pc)))) := by
  have e : hi4 (s.readByte s.pc) = 0#4 := (hi4_eq_iff _ _).2 h
  simp [State.fetchDecode, decodeFrom, bind, Except.bind, s.fetch8_ok hp, e, pure, Except.pure]

theorem State.fetchDecode_rr (s : State) (om : OpMap) (hp : s.pc + 1 < memSize)
    (h : (s.readByte s.pc).toNat / 16 = 1) :
    s.fetchDecode om = .ok (recordRR om (s.readByte s.pc) (hi4 (s.readByte (s.pc + 1)))
      (lo4 (s.readByte (s.pc + 1)))) := by
  have e : hi4 (s.readByte s.pc) = 1#4 := (hi4_eq_iff _ _).2 h
  simp [State.fetchDecode, decodeFrom, bind, Except.bind, s.fetch8_ok (a := s.pc) (by omega),
    s.fetch8_ok hp, e, pure, Except.pure]

theorem State.fetchDecode_rx (s : State) (om : OpMap) (hp : s.pc + 3 < memSize)
    (h : 2 ≤ (s.readByte s.pc).toNat / 16) :
    s.fetchDecode om = .ok (recordRX om (s.readByte s.pc) (hi4 (s.readByte (s.pc + 1)))
      (lo4 (s.readByte (s.pc + 1))) (hi4 (s.readByte (s.pc + 2)))
      (dispOf (s.readByte (s.pc + 2)) (s.readByte (s.pc + 3)))) := by
  obtain ⟨h0, h1⟩ := hi4_of_rx h
  simp [State.fetchDecode, decodeFrom, bind, Except.bind, s.fetch8_ok (a := s.pc) (by omega),
    s.fetch8_ok (a := s.pc + 1) (by omega), s.fetch8_ok (a := s.pc + 2) (by omega), s.fetch8_ok hp,
    h0, h1, pure, Except.pure]

/-- A fetch fails only with FetchOutOfRange, at one of the instruction's own offsets (R200). -/
theorem State.fetchDecode_error {s : State} {om : OpMap} {f : Fault} (h : s.fetchDecode om = .error f) :
    ∃ a, f = .fetchOutOfRange a ∧ memSize ≤ a ∧ s.pc ≤ a ∧ a ≤ s.pc + 3 := by
  have key : ∀ k g, s.fetch8 (s.pc + k) = .error g → g = .fetchOutOfRange (s.pc + k) ∧ memSize ≤ s.pc + k := by
    intro k g hg
    by_cases hk : s.pc + k < memSize
    · rw [s.fetch8_ok hk] at hg; cases hg
    · rw [s.fetch8_error (Nat.le_of_not_lt hk)] at hg; cases hg; exact ⟨rfl, Nat.le_of_not_lt hk⟩
  unfold State.fetchDecode decodeFrom at h
  simp only [bind, Except.bind, pure, Except.pure] at h
  repeat' split at h
  all_goals cases h
  all_goals
    next e =>
    obtain ⟨x, y⟩ := key _ _ e
    exact ⟨_, x, y, by omega, by omega⟩

/-! ### One iteration of the loop (R110) -/

theorem cycle_instr {om : OpMap} {i : Instr} {s : State} (hr : s.status = .running)
    (hf : s.fetchDecode om = .ok (.instr i)) : cycle om s = exec i s := by
  simp [cycle, hr, runningCycle, hf]

theorem cycle_unassigned {om : OpMap} {d : Decoded} {s : State} (hr : s.status = .running)
    (hf : s.fetchDecode om = .ok d) (hu : ∀ i, d ≠ .instr i) : cycle om s = .next (s.skipUnassigned d) := by
  cases d with
  | instr i => exact absurd rfl (hu i)
  | unassignedRR op r1 r2 => simp [cycle, hr, runningCycle, hf]
  | unassignedRX op r1 x2 b2 d2 => simp [cycle, hr, runningCycle, hf]

theorem cycle_fetchFault {om : OpMap} {f : Fault} {s : State} (hr : s.status = .running)
    (hf : s.fetchDecode om = .error f) : cycle om s = .next (s.takeFault f) := by
  simp [cycle, hr, runningCycle, hf]

/-- What one iteration can do: nothing in a terminal state; else take a fault, run an instruction to its end,
or skip an unassigned opcode. -/
theorem cycle_cases {om : OpMap} {s t : State} (h : cycle om s = .next t) :
    (s.status ≠ .running ∧ t = s) ∨
    (∃ f, s.status = .running ∧ t = s.takeFault f) ∨
    (∃ i u, s.status = .running ∧ s.fetchDecode om = .ok (.instr i) ∧ Ran s i u ∧ t = u.endCycle) ∨
    (∃ d, s.status = .running ∧ s.fetchDecode om = .ok d ∧ (∀ i, d ≠ .instr i) ∧
      t = (s.decodeAdvance d).endCycle) := by
  by_cases hr : s.status = .running
  · cases hf : s.fetchDecode om with
    | error f =>
      rw [cycle_fetchFault hr hf] at h; cases h
      exact .inr (.inl ⟨f, hr, rfl⟩)
    | ok d =>
      by_cases hu : ∃ i, d = .instr i
      · obtain ⟨i, rfl⟩ := hu
        rw [cycle_instr hr hf] at h
        obtain ⟨u, hu, e⟩ | ⟨a, n, -, -, e⟩ := exec_cases i s
        · rw [e] at h; cases h
          exact .inr (.inr (.inl ⟨i, u, hr, rfl, hu, rfl⟩))
        · rw [e] at h; cases h
          exact .inr (.inl ⟨_, hr, rfl⟩)
      · have hu' : ∀ i, d ≠ .instr i := fun i e => hu ⟨i, e⟩
        rw [cycle_unassigned hr hf hu'] at h; cases h
        exact .inr (.inr (.inr ⟨d, hr, rfl, hu', rfl⟩))
  · refine .inl ⟨hr, ?_⟩
    unfold cycle at h
    split at h
    · next e => exact absurd e hr
    · exact (Host.Outcome.next.inj h).symm
    · exact (Host.Outcome.next.inj h).symm
    · cases h

end Sys2Proof.Machine
end

