-- ==== Sys2Proof/Tests/Slice0.lean ====
section
/-!
SUPPORT. Tests and witnesses. The expected values are those of spec/95_test_vectors.md (named V-… or P…) or
are worked out by hand from the rule named. No test runs more than one cycle.
-/

namespace Sys2Proof.Machine.Tests

open Sys2Proof Sys2Proof.Machine

/-! ### Helpers -/

/-- The outcome is a next state with the property. -/
def nextSat (o : Host.Outcome State Fault Refusal) (p : State → Bool) : Bool :=
  match o with
  | .next t => p t
  | .fault _ => false
  | .refused _ => false

theorem next_of_nextSat {o : Host.Outcome State Fault Refusal} {p : State → Bool} (h : nextSat o p = true) :
    ∃ t, o = .next t ∧ p t = true := by
  cases o with
  | next t => exact ⟨t, rfl, h⟩
  | fault f => cases h
  | refused r => cases h

/-- A running state with the given bytes at the given PC, the IA, and the registers 1, 2 and 3. -/
def at_ (pc ia : Nat) (x1 x2 x3 : Word) (bytes : List Byte) : State :=
  ((({ State.reset with pc := pc, ia := ia }.setReg 1 x1).setReg 2 x2).setReg 3 x3).writeBytes pc bytes

/-- The same at offset 0. -/
def run0 (x1 x2 x3 : Word) (bytes : List Byte) : State := at_ 0 0 x1 x2 x3 bytes

/-- The bytes at an address. -/
def bytesAt (t : State) (a n : Nat) : List Byte := (List.range n).map fun k => t.readByte (a + k)

/-- The loads' memory of spec/95: a word 0x00000010 at 0x20 and 0xFFFFFFFF at 0x24. -/
def withData (s : State) : State :=
  s.writeBytes 0x20 [0x00#8, 0x00#8, 0x00#8, 0x10#8, 0xFF#8, 0xFF#8, 0xFF#8, 0xFF#8]

/-! ### Well-formedness: an ill-formed term for each check -/

theorem test_defaultOpMap_wf : defaultOpMap.wf = true := by decide

/-- R11 (i): an RR opcode's byte with another high nibble. -/
theorem test_opMap_rrClass_refused :
    OpMap.wf (fun m => if m = .lr then 0x28#8 else defaultOpMap m) = false := by decide

/-- R11 (ii): an RX opcode's byte with high nibble 1, and with high nibble 0. -/
theorem test_opMap_rxClass_refused :
    OpMap.wf (fun m => if m = .la then 0x1F#8 else defaultOpMap m) = false ∧
    OpMap.wf (fun m => if m = .la then 0x0F#8 else defaultOpMap m) = false := by decide

/-- R11 (iii): two opcodes with one byte. -/
theorem test_opMap_distinct_refused :
    OpMap.wf (fun m => if m = .l then 0x59#8 else defaultOpMap m) = false := by decide

/-- R92: an unassigned record of the wrong class, or with an assigned byte. -/
theorem test_record_refused :
    (Decoded.unassignedRR 0x20#8 0 0).wf defaultOpMap = false ∧
    (Decoded.unassignedRR 0x18#8 0 0).wf defaultOpMap = false ∧
    (Decoded.unassignedRX 0x1F#8 0 0 0 0).wf defaultOpMap = false ∧
    (Decoded.unassignedRX 0x41#8 0 0 0 0).wf defaultOpMap = false := by decide

/-- R7, E7: 4097 bytes do not fit, 4096 do. -/
theorem test_image_refused :
    imageFits (List.replicate 4097 0#8) = false ∧ imageFits (List.replicate 4096 0#8) = true := by
  constructor <;> simp only [imageFits, List.length_replicate, memSize] <;> decide

/-! ### Decoding: words written out from the encodings -/

theorem test_decode_lr : decodeTableWord 16 0x1812 = some (.lr 1 2) := by decide
theorem test_decode_cr : decodeTableWord 16 0x1912 = some (.cr 1 2) := by decide
theorem test_decode_ar : decodeTableWord 16 0x1A34 = some (.ar 3 4) := by decide
theorem test_decode_sr : decodeTableWord 16 0x1B56 = some (.sr 5 6) := by decide
theorem test_decode_la : decodeTableWord 32 0x41132005 = some (.la 1 3 2 5) := by decide
theorem test_decode_bct : decodeTableWord 32 0x46300008 = some (.bct 3 0 0 8) := by decide
theorem test_decode_bc : decodeTableWord 32 0x47224FFE = some (.bc 2 2 4 0xFFE) := by decide
theorem test_decode_st : decodeTableWord 32 0x50132008 = some (.st 1 3 2 8) := by decide
theorem test_decode_l : decodeTableWord 32 0x58123456 = some (.l 1 2 3 0x456) := by decide
theorem test_decode_c : decodeTableWord 32 0x59100024 = some (.c 1 0 0 0x24) := by decide
theorem test_decode_halt : decodeTableWord 8 0x0F = some (.halt 15) := by decide

/-- V-D4, V-D6: unassigned bytes decode to no instruction, and in full all the same. -/
theorem test_decode_unassigned :
    decodeTableWord 16 0x1000 = none ∧
    decode defaultOpMap [0x10#8, 0x34#8] = .ok (.unassignedRR 0x10#8 3 4) ∧
    decode defaultOpMap [0x2A#8, 0x00#8, 0x0F#8, 0xFF#8] = .ok (.unassignedRX 0x2A#8 0 0 0 0xFFF) := by decide

/-- V-D1, V-D2, V-D3: the effective addresses. -/
theorem test_effectiveAddress :
    (Decoded.instr (.l 1 2 3 0x456)).ea = some 0x45B ∧ (Decoded.instr (.ar 3 4)).ea = some 4 ∧
    (Decoded.instr (.la 15 15 15 0xFFF)).ea = some 4125 := by decide

/-- The host's two questions, on one word: the word placed at the PC runs as the first instruction. -/
theorem test_withFetchWord :
    nextSat (step (State.reset.withFetchWord 32 0x41132005))
      (fun t => t.reg 1 == 5 && t.pc == 4) = true := by decide

/-! ### One cycle of each instruction -/

/-- V-LR. -/
theorem test_lr :
    nextSat (step { run0 0 0x80000001 0 [0x18#8, 0x12#8] with cc := .greater }) (fun t =>
      t.reg 1 == 0x80000001 && t.cc == .greater && t.pc == 2 && t.tally.exec.lr == 1) = true := by decide

/-- V-CR: -2147483648 is less than 2147483647. -/
theorem test_cr_signed :
    nextSat (step (run0 0x80000000 0x7FFFFFFF 0 [0x19#8, 0x12#8])) (fun t =>
      t.cc == .less && t.reg 1 == 0x80000000 && t.tally.exec.cr == 1) = true := by decide

theorem test_cr_greater :
    nextSat (step (run0 7 5 0 [0x19#8, 0x12#8])) (fun t => t.cc == .greater) = true := by decide

/-- V-AR: the largest positive word plus 1. -/
theorem test_ar_wraps :
    nextSat (step (run0 0x7FFFFFFF 1 0 [0x1A#8, 0x12#8])) (fun t =>
      t.reg 1 == 0x80000000 && t.cc == .less && t.ia == 2) = true := by decide

/-- V-AR: `AR 1,1`, the source also the destination. -/
theorem test_ar_same :
    nextSat (step (run0 0x40000000 0 0 [0x1A#8, 0x11#8])) (fun t =>
      t.reg 1 == 0x80000000 && t.cc == .less) = true := by decide

/-- V-SR: the sign of the wrapped result, where CR says `less` (R147). -/
theorem test_sr_wraps :
    nextSat (step (run0 0x80000000 1 0 [0x1B#8, 0x12#8])) (fun t =>
      t.reg 1 == 0x7FFFFFFF && t.cc == .greater) = true := by decide

theorem test_sr_order :
    nextSat (step (run0 3 5 0 [0x1B#8, 0x12#8])) (fun t =>
      t.reg 1 == 0xFFFFFFFE && t.cc == .less && t.reg 2 == 5) = true := by decide

/-- V-LA: the displacement, not 3 + 2 + 5. -/
theorem test_la :
    nextSat (step (run0 0 0 0 [0x41#8, 0x13#8, 0x20#8, 0x05#8])) (fun t =>
      t.reg 1 == 5 && t.ia == 4) = true := by decide

/-- V-LA, V-D3: a displacement of 4095 advances the IA by 4095. -/
theorem test_la_iaQuirk :
    nextSat (step (run0 0 0 0 [0x41#8, 0x00#8, 0x0F#8, 0xFF#8])) (fun t =>
      t.reg 0 == 0xFFF && t.ia == 4095 && t.pc == 4) = true := by decide

/-- V-BCT, taken: 0 wraps below zero. -/
theorem test_bct_taken :
    nextSat (step (at_ 0x10 0x10 0 0 0 [0x46#8, 0x10#8, 0x00#8, 0x40#8])) (fun t =>
      t.reg 1 == 0xFFFFFFFF && t.pc == 0x40 && t.ia == 0x40 && t.tally.takenBct == 1) = true := by decide

/-- V-BCT, not taken. -/
theorem test_bct_notTaken :
    nextSat (step (at_ 0x10 0x10 1 0 0 [0x46#8, 0x10#8, 0x00#8, 0x40#8])) (fun t =>
      t.reg 1 == 0 && t.pc == 0x14 && t.ia == 0x14 && t.tally.takenBct == 0) = true := by decide

/-- P6: condition code 2 and mask 2, to 2 + 4 + 4094. -/
theorem test_bc_taken :
    nextSat (step { at_ 6 6 1 0 0 [0x47#8, 0x22#8, 0x4F#8, 0xFE#8] with cc := .greater }) (fun t =>
      t.pc == 4100 && t.ia == 4100 && t.tally.takenBc == 1 && t.events.length == 1) = true := by decide

/-- V-BC-F1: fatal for every mask, with the dump and no trace. -/
theorem test_bc_fatal :
    nextSat (step (at_ 0x10 4095 0 0 0 [0x47#8, 0xF0#8, 0x00#8, 0x40#8])) (fun t =>
      t.status == .fatalBC && t.pc == 0x14 && t.tally.exec.bc == 1 &&
        t.events == [.dump t.regs 4099 .equal]) = true := by decide

/-- V-ST3: case (a) stores at `x[B2]`, the cache sees 2 + 3 + 8 (set 1). -/
theorem test_st_caseA :
    nextSat (step (run0 0xAABBCCDD 0x100 0x123 [0x50#8, 0x13#8, 0x20#8, 0x08#8])) (fun t =>
      bytesAt t 0xFF 6 == [0x00#8, 0xAA#8, 0xBB#8, 0xCC#8, 0xDD#8, 0x00#8] &&
        t.cache.line .bank0 1 == { valid := true, tag := 0, recency := 1 } &&
        t.tally.memWrites == 1) = true := by decide

/-- V-ST7: case (c) stores the low byte of its own address and ignores the displacement. -/
theorem test_st_caseC :
    nextSat (step (run0 0xAABBCCDD 0x100 0x123 [0x50#8, 0x13#8, 0x00#8, 0x7F#8])) (fun t =>
      bytesAt t 0x122 3 == [0x00#8, 0x23#8, 0x00#8] &&
        t.cache.line .bank0 4 == { valid := true, tag := 2, recency := 1 }) = true := by decide

/-- V-L2: 1 + 1 + 0x20, an unaligned word, most significant byte first. -/
theorem test_l :
    nextSat (step (withData (run0 0 0 0 [0x58#8, 0x21#8, 0x10#8, 0x20#8]))) (fun t =>
      t.reg 2 == 0x0010FFFF && t.tally.memReads == 1 && t.tally.cacheMisses == 1) = true := by decide

/-- V-L4: beyond memory only the status changes. -/
theorem test_l_outOfRange :
    nextSat (step (run0 0 0 0 [0x58#8, 0x10#8, 0x0F#8, 0xFD#8])) (fun t =>
      t == { run0 0 0 0 [0x58#8, 0x10#8, 0x0F#8, 0xFD#8] with
        status := .fault (.dataOutOfRange 4093 4) }) = true := by decide

/-- V-C2: 0 is greater than -1. -/
theorem test_c_signed :
    nextSat (step (withData (run0 0 0 0 [0x59#8, 0x10#8, 0x00#8, 0x24#8]))) (fun t =>
      t.cc == .greater && t.tally.exec.c == 1) = true := by decide

/-- V-C4: the register comes first. -/
theorem test_c_order :
    nextSat (step (withData (run0 0xFFFFFFFF 0 0 [0x59#8, 0x10#8, 0x00#8, 0x20#8]))) (fun t =>
      t.cc == .less) = true := by decide

/-- V-D7: `0F` halts, without a trace. -/
theorem test_halt :
    nextSat (step (at_ 5 5 0 0 0 [0x0F#8])) (fun t =>
      t.status == .halted && t.halted && t.pc == 6 && t.ia == 5 && t.tally.fetch == 1 &&
        t.events == []) = true := by decide

/-- V-D6: an unassigned RX byte. -/
theorem test_unassigned :
    nextSat (step (run0 0 0 0 [0x2A#8, 0x00#8, 0x0F#8, 0xFF#8])) (fun t =>
      t.pc == 4 && t.ia == 4095 && t.tally.fetch == 1 && t.events.length == 1) = true := by decide

/-- V-D9. -/
theorem test_fetch_beyond :
    nextSat (step (at_ 4093 0 0 0 0 [0x58#8])) (fun t =>
      t.status == .fault (.fetchOutOfRange 4096) && t.pc == 4093 && t.tally.fetch == 0) = true := by decide

/-- R61's table: sets and tags. -/
theorem test_addressSplit :
    (setIndex 0x78, tagOf 0x78) = (15, 0) ∧ (setIndex 0x10A, tagOf 0x10A) = (1, 2) ∧
    (setIndex 4125, tagOf 4125) = (3, 32) ∧ (setIndex 8187, tagOf 8187) = (15, 63) := by decide

/-- V-C4's five accesses, A B A C B: set 0 after them. -/
theorem test_cache_lru :
    let c := ((((Cache.reset.access 0).access 0x80).access 0).access 0x100).access 0x80
    c.line .bank0 0 = { valid := true, tag := 1, recency := 5 } ∧
    c.line .bank1 0 = { valid := true, tag := 2, recency := 4 } ∧ c.acc = 5 := by decide

/-! ### Witnesses: what meets the hypotheses of each statement, clause by clause -/

theorem witness_DecodeInvertsEncode :
    defaultOpMap.wf = true ∧ (Decoded.instr (.st 15 0 9 0xFFF)).wf defaultOpMap = true ∧
    (Decoded.unassignedRR 0x1F#8 15 0).wf defaultOpMap = true ∧
    (Decoded.unassignedRX 0xFF#8 1 2 3 0x456).wf defaultOpMap = true := by decide

theorem witness_DecodedBytesAreTheEncoding :
    defaultOpMap.wf = true ∧
    decode defaultOpMap [0x58#8, 0x12#8, 0x34#8, 0x56#8, 0x77#8] = .ok (.instr (.l 1 2 3 0x456)) ∧
    decode defaultOpMap [0x20#8, 0x12#8, 0x34#8, 0x56#8] = .ok (.unassignedRX 0x20#8 1 2 3 0x456) := by decide

/-- Lists just long enough, and one byte too short, for each class. -/
theorem witness_DecodeFailsOnlyOnMissingByte :
    decode defaultOpMap [0x0F#8] = .ok (.instr (.halt 15)) ∧
    decode defaultOpMap [0x1F#8, 0x12#8] = .ok (.unassignedRR 0x1F#8 1 2) ∧
    decode defaultOpMap [0x1F#8] = .error (.missingByte 1) ∧
    decode defaultOpMap [0x50#8, 0, 0, 0] = .ok (.instr (.st 0 0 0 0)) ∧
    decode defaultOpMap [0x50#8, 0, 0] = .error (.missingByte 3) ∧
    decode defaultOpMap [0x20#8] = .error (.missingByte 1) := by decide

theorem witness_RrFieldsAndAdvance :
    (0x10#8 : Byte).toNat / 16 = 1 ∧ (0x1F#8 : Byte).toNat / 16 = 1 := by decide

theorem witness_RxFieldsAndEffectiveAddress :
    2 ≤ (0x20#8 : Byte).toNat / 16 ∧ 2 ≤ (0xFF#8 : Byte).toNat / 16 := by decide

theorem witness_StepRunsDecodedInstruction :
    (run0 1 2 3 [0x18#8, 0x12#8]).status = .running ∧
    (run0 1 2 3 [0x18#8, 0x12#8]).fetchDecode defaultOpMap = .ok (.instr (.lr 1 2)) := by decide

/-- An instruction in the last four bytes of memory. -/
theorem witness_CycleRunsEncodedInstruction :
    let s := at_ 4092 0 0 0 0 [0x58#8, 0x10#8, 0x00#8, 0x20#8]
    defaultOpMap.wf = true ∧ s.status = .running ∧
    ∀ (k : Nat) (h : k < (encode defaultOpMap (.l 1 0 0 0x20)).length),
      s.pc + k < 4096 ∧ s.readByte (s.pc + k) = (encode defaultOpMap (.l 1 0 0 0x20))[k] := by decide

/-- The last offset at which each class still fits, and a byte of each of the three kinds. -/
theorem witness_DispatchMatchesWholeByte :
    let s (pc : Nat) (op : Byte) := at_ pc 0 0 0 0 [op]
    let fits (s : State) := s.status = .running ∧
      s.pc + (if (s.readByte s.pc).toNat / 16 = 0 then 1
              else if (s.readByte s.pc).toNat / 16 = 1 then 2 else 4) ≤ 4096
    defaultOpMap.wf = true ∧
    (fits (s 4092 0x47#8) ∧ (s 4092 0x47#8).readByte 4092 = defaultOpMap .bc) ∧
    (fits (s 4094 0x18#8) ∧ (s 4094 0x18#8).readByte 4094 = defaultOpMap .lr) ∧
    (fits (s 4095 0x0F#8) ∧ ((s 4095 0x0F#8).readByte 4095).toNat / 16 = 0) ∧
    (fits (s 4094 0x10#8) ∧ ((s 4094 0x10#8).readByte 4094).toNat / 16 ≠ 0) ∧
    ∀ m : Op, (s 4094 0x10#8).readByte 4094 ≠ defaultOpMap m := by
  refine ⟨by decide, by decide, by decide, by decide, by decide, fun m => ?_⟩
  cases m <;> decide

/-- The last offset at which each class still fits, and both advances of the IA. -/
theorem witness_UnassignedOpcodeIsIgnored :
    let rr := at_ 4094 0 0 0 0 [0x10#8, 0x00#8]
    let rx := at_ 4092 0 0 0 0 [0x20#8, 0x00#8, 0x0F#8, 0xFF#8]
    let rx' := at_ 4092 0 0 0 0 [0xFF#8, 0x00#8, 0x0F#8, 0xFE#8]
    defaultOpMap.wf = true ∧
    (rr.status = .running ∧ rr.pc < 4096 ∧ defaultOpMap.unassigned (rr.readByte rr.pc) = true ∧
      (rr.readByte rr.pc).toNat / 16 = 1 ∧ rr.pc + 1 < 4096) ∧
    (rx.status = .running ∧ defaultOpMap.unassigned (rx.readByte rx.pc) = true ∧
      2 ≤ (rx.readByte rx.pc).toNat / 16 ∧ rx.pc + 3 < 4096 ∧
      (rx.readByte (rx.pc + 2)).toNat % 16 * 256 + (rx.readByte (rx.pc + 3)).toNat = 4095) ∧
    (rx'.status = .running ∧ defaultOpMap.unassigned (rx'.readByte rx'.pc) = true ∧
      2 ≤ (rx'.readByte rx'.pc).toNat / 16 ∧ rx'.pc + 3 < 4096 ∧
      (rx'.readByte (rx'.pc + 2)).toNat % 16 * 256 + (rx'.readByte (rx'.pc + 3)).toNat ≠ 4095) := by decide

theorem witness_TerminalStatusIsFinal :
    { State.reset with status := .halted, halted := true }.status = .halted ∧
    { State.reset with status := .fatalBC }.status = .fatalBC ∧
    { State.reset with status := .fault (.dataOutOfRange 4093 4) }.status =
      .fault (.dataOutOfRange 4093 4) := by decide

/-- Running states, one for each outcome: a next cycle, a halt, a fatal BC, and the two faults. -/
theorem witness_CycleOutcomes :
    let outcome (s : State) (r : RunStatus) := s.status = .running ∧
      nextSat (cycle defaultOpMap s) (fun t => t.status == r) = true
    outcome (run0 0 0 0 [0x18#8, 0x12#8]) .running ∧ outcome State.reset .halted ∧
    outcome (at_ 0 4092 0 0 0 [0x47#8, 0, 0, 0]) .fatalBC ∧
    outcome (at_ 4096 0 0 0 0 []) (.fault (.fetchOutOfRange 4096)) ∧
    outcome (run0 0 0 0 [0x59#8, 0x10#8, 0x0F#8, 0xFD#8]) (.fault (.dataOutOfRange 4093 4)) := by decide

theorem witness_ModelFaultUndoesCycle :
    let s := run0 0 0 0 [0x59#8, 0x10#8, 0x0F#8, 0xFD#8]
    s.status = .running ∧ ∃ t, cycle defaultOpMap s = .next t ∧
      (t.status == .fault (.dataOutOfRange 4093 4)) = true :=
  ⟨by decide, next_of_nextSat (by decide)⟩

/-- Each clause at its boundary: 4096; RR at 4095; RX at 4093 and 4095. -/
theorem witness_FetchBeyondMemoryFaults :
    (at_ 4096 0 0 0 0 []).status = .running ∧ 4096 ≤ (at_ 4096 0 0 0 0 []).pc ∧
    (let s := at_ 4095 0 0 0 0 [0x18#8]
     s.status = .running ∧ s.pc = 4095 ∧ (s.readByte s.pc).toNat / 16 = 1) ∧
    (let s := at_ 4093 0 0 0 0 [0x58#8]
     s.status = .running ∧ 4093 ≤ s.pc ∧ s.pc ≤ 4095 ∧ 2 ≤ (s.readByte s.pc).toNat / 16) ∧
    (let s := at_ 4095 0 0 0 0 [0x20#8]
     s.status = .running ∧ 4093 ≤ s.pc ∧ s.pc ≤ 4095 ∧ 2 ≤ (s.readByte s.pc).toNat / 16) := by decide

/-- A cycle that ends in each of the four kinds of status. -/
theorem witness_EventsOfACycle :
    let ends (s : State) (r : RunStatus) := s.status = .running ∧
      ∃ t, cycle defaultOpMap s = .next t ∧ (t.status == r) = true
    ends (run0 0 0 0 [0x10#8, 0]) .running ∧ ends State.reset .halted ∧
    ends (at_ 0 4092 0 0 0 [0x47#8, 0, 0, 0]) .fatalBC ∧
    ends (at_ 4096 0 0 0 0 []) (.fault (.fetchOutOfRange 4096)) :=
  ⟨⟨by decide, next_of_nextSat (by decide)⟩, ⟨by decide, next_of_nextSat (by decide)⟩,
    ⟨by decide, next_of_nextSat (by decide)⟩, ⟨by decide, next_of_nextSat (by decide)⟩⟩

/-- The last cell (V-D10). -/
theorem witness_ZeroCellHalts :
    let s := at_ 4095 0 0 0 0 []
    s.status = .running ∧ s.pc < 4096 ∧ s.readByte s.pc = 0#8 := by decide

/-- The one hypothesis of the statements of LR, CR, AR, SR, LA and BCT: the reset state runs. BCT's two clauses are
met by the registers 1 and 2 of a state that holds 1 and 0 in them. -/
theorem witness_LrCopiesRegister : State.reset.status = .running := by decide
theorem witness_CrComparesSigned : State.reset.status = .running := by decide
theorem witness_ArAddsAndSetsSign : State.reset.status = .running := by decide
theorem witness_SrSubtractsAndSetsSign : State.reset.status = .running := by decide
theorem witness_LaLoadsDisplacement : State.reset.status = .running := by decide
theorem witness_BctDecrementsAndBranches :
    (run0 1 0 0 []).status = .running ∧ (run0 1 0 0 []).reg 1 = 1#32 ∧ (run0 1 0 0 []).reg 2 ≠ 1#32 := by
  decide

theorem witness_RrInstructionsTouchNothingElse :
    (Instr.sr 1 2).format = .rr ∧ State.reset.status = .running ∧
    ∃ t, exec (.sr 1 2) State.reset = .next t ∧ (t.cc == .equal) = true :=
  ⟨by decide, by decide, next_of_nextSat (by decide)⟩

/-- The IA at exactly 4095 after BC's own advance, by 4 and by 4095; a mask that takes the branch and one that
does not. -/
theorem witness_BcBranchesOnMask :
    let s := { at_ 0 4091 0 0 0 [] with cc := .greater }
    s.status = .running ∧ s.ia + (if (0x040#12 : Disp).toNat = 4095 then 4095 else 4) ≤ 4095 ∧
    State.reset.ia + (if (0xFFF#12 : Disp).toNat = 4095 then 4095 else 4) ≤ 4095 ∧
    (2#4 : Nibble) &&& s.cc.value ≠ 0#4 ∧ (13#4 : Nibble) &&& s.cc.value = 0#4 := by decide

/-- The IA at exactly 4096 after BC's own advance, by 4 and by 4095. -/
theorem witness_BcFatalAboveIaLimit :
    4095 < (at_ 0 4092 0 0 0 []).ia + (if (0x040#12 : Disp).toNat = 4095 then 4095 else 4) ∧
    4095 < (at_ 0 1 0 0 0 []).ia + (if (0xFFF#12 : Disp).toNat = 4095 then 4095 else 4) := by decide

/-- The last address a word fits, with X2 zero and not. -/
theorem witness_StCaseAStoresAtBase :
    let s := run0 0xAABBCCDD 4092 0 []
    s.status = .running ∧ s.mem.wf = true ∧ (2#4 : Nibble) ≠ 0#4 ∧ (s.reg 2).toNat ≤ 4092 ∧
    (0#4 : Nibble) = 0#4 ∧ (3#4 : Nibble) ≠ 0#4 := by decide

theorem witness_StCaseBStoresAtDisplacement :
    State.reset.status = .running ∧ State.reset.mem.wf = true ∧ (0xFFC#12 : Disp).toNat ≤ 4092 := by decide

theorem witness_StCaseCStoresAddressByte :
    let s := run0 0 0 4095 []
    s.status = .running ∧ s.mem.wf = true ∧ (3#4 : Nibble) ≠ 0#4 ∧ (s.reg 3).toNat ≤ 4095 := by decide

/-- The first address at which each case faults. -/
theorem witness_StOutOfRangeFaults :
    ((2#4 : Nibble) ≠ 0#4 ∧ 4092 < ((run0 0 4093 4096 []).reg 2).toNat) ∧
    4092 < (0xFFD#12 : Disp).toNat ∧
    ((3#4 : Nibble) ≠ 0#4 ∧ 4095 < ((run0 0 4093 4096 []).reg 3).toNat) := by decide

/-- The last address a word fits, 15 + 15 + 4062. -/
theorem witness_LLoadsBigEndianWord :
    State.reset.status = .running ∧
    4092 = (15#4 : Nibble).toNat + (15#4 : Nibble).toNat + (4062#12 : Disp).toNat ∧ 4092 ≤ 4092 := by decide

theorem witness_CComparesWithMemoryWord :
    let s := run0 0 0 0 []
    s.status = .running ∧
    4092 = (15#4 : Nibble).toNat + (15#4 : Nibble).toNat + (4062#12 : Disp).toNat ∧ 4092 ≤ 4092 ∧
    0#32 = s.readByte 4092 ++ s.readByte (4092 + 1) ++ s.readByte (4092 + 2) ++ s.readByte (4092 + 3) := by
  decide

/-- The first address that faults, and the last effective address there is. -/
theorem witness_LoadOutOfRangeFaults :
    4092 < (0#4 : Nibble).toNat + (0#4 : Nibble).toNat + (0xFFD#12 : Disp).toNat ∧
    4092 < (15#4 : Nibble).toNat + (15#4 : Nibble).toNat + (0xFFF#12 : Disp).toNat := by decide

theorem witness_OnlyStoreChangesMemory :
    let s := run0 0xAABBCCDD 0x100 0 [0x50#8, 0x10#8, 0x20#8, 0x00#8]
    ∃ t, cycle defaultOpMap s = .next t ∧ (t.readByte 0x103 != s.readByte 0x103) = true :=
  next_of_nextSat (p := fun t => t.readByte 0x103 !=
    (run0 0xAABBCCDD 0x100 0 [0x50#8, 0x10#8, 0x20#8, 0x00#8]).readByte 0x103) (by decide)

/-- Each of the four writers of the condition code. -/
theorem witness_OnlyComparesAndArithmeticWriteCc :
    let writesCc (b0 b1 b2 b3 : Byte) :=
      ∃ t, cycle defaultOpMap (run0 1 2 3 [b0, b1, b2, b3]) = .next t ∧ (t.cc != .equal) = true
    writesCc 0x19 0x12 0 0 ∧ writesCc 0x1A 0x12 0 0 ∧ writesCc 0x1B 0x12 0 0 ∧ writesCc 0x59 0x10 0 0x40 :=
  ⟨next_of_nextSat (by decide), next_of_nextSat (by decide), next_of_nextSat (by decide),
    next_of_nextSat (by decide)⟩

/-- Each of the six writers of a register. -/
theorem witness_RegisterWritersAreTheTable :
    let writesX1 (b0 b1 b2 b3 : Byte) :=
      ∃ t, cycle defaultOpMap (run0 1 2 3 [b0, b1, b2, b3]) = .next t ∧ (t.reg 1 != 1#32) = true
    writesX1 0x18 0x12 0 0 ∧ writesX1 0x1A 0x12 0 0 ∧ writesX1 0x1B 0x12 0 0 ∧ writesX1 0x41 0x10 0 0x10 ∧
    writesX1 0x46 0x10 0 0x10 ∧ writesX1 0x58 0x10 0 0x40 :=
  ⟨next_of_nextSat (by decide), next_of_nextSat (by decide), next_of_nextSat (by decide),
    next_of_nextSat (by decide), next_of_nextSat (by decide), next_of_nextSat (by decide)⟩

/-- `d` decodes at a running state and its cycle does not fault, for a record of each clause. -/
theorem witness_OneCacheAccessPerDataAccess :
    let completes (s : State) (d : Decoded) := s.status = .running ∧ s.fetchDecode defaultOpMap = .ok d ∧
      nextSat (cycle defaultOpMap s) (fun t => !t.faulted) = true
    completes (run0 0 0 0 [0x58#8, 0x1F#8, 0xFF#8, 0xDE#8]) (.instr (.l 1 15 15 4062)) ∧
    completes (run0 0 0 0 [0x59#8, 0x10#8, 0x0F#8, 0xFC#8]) (.instr (.c 1 0 0 4092)) ∧
    completes (run0 0 4092 0 [0x50#8, 0x10#8, 0x2F#8, 0xFF#8]) (.instr (.st 1 0 2 4095)) ∧
    completes (run0 0 0 0 [0x18#8, 0x12#8]) (.instr (.lr 1 2)) ∧
    completes (run0 0 0 0 [0x10#8, 0x12#8]) (.unassignedRR 0x10 1 2) := by decide

/-- A dispatched opcode, and a record that dispatches none. -/
theorem witness_FetchAndDispatchAreCounted :
    let completes (s : State) (d : Decoded) := s.status = .running ∧ s.fetchDecode defaultOpMap = .ok d ∧
      nextSat (cycle defaultOpMap s) (fun t => !t.faulted) = true
    completes (run0 0 0 0 [0x1A#8, 0x12#8]) (.instr (.ar 1 2)) ∧
    completes (run0 0 0 0 [0x20#8, 0x12#8]) (.unassignedRX 0x20 1 2 0 0) ∧
    completes State.reset (.instr (.halt 0)) := by decide

/-! States with condition code `less` before a BC: mask 14 at IA 0, and mask 1 at the two sides of the IA limit. -/

def less0 : State := { run0 0 0 0 [0x47#8, 0xE0#8, 0x00#8, 0x40#8] with cc := .less }
def less4091 : State := { at_ 0 4091 0 0 0 [0x47#8, 0x10#8, 0x00#8, 0x40#8] with cc := .less }
def less4092 : State := { at_ 0 4092 0 0 0 [0x47#8, 0x10#8, 0x00#8, 0x40#8] with cc := .less }

/-- One record of each format, none a taken branch (BCT to zero, BC with mask 14, BC with the IA at 4096), and a
taken BCT and BC, the BC with the IA at exactly 4095 after its own advance. -/
theorem witness_PcMovesByFormatOrBranch :
    let completes (s : State) (d : Decoded) (pc : Nat) := s.status = .running ∧
      s.fetchDecode defaultOpMap = .ok d ∧
      nextSat (cycle defaultOpMap s) (fun t => !t.faulted && t.pc == pc) = true
    completes State.reset (.instr (.halt 0)) 1 ∧
    completes (run0 0 0 0 [0x1A#8, 0x12#8]) (.instr (.ar 1 2)) 2 ∧
    completes (run0 0 0 0 [0x41#8, 0x12#8]) (.instr (.la 1 2 0 0)) 4 ∧
    completes (run0 1 0 0 [0x46#8, 0x10#8, 0x00#8, 0x40#8]) (.instr (.bct 1 0 0 0x40)) 4 ∧
    completes less0 (.instr (.bc 14 0 0 0x40)) 4 ∧ completes less4092 (.instr (.bc 1 0 0 0x40)) 4 ∧
    completes (run0 2 0 0 [0x46#8, 0x1F#8, 0xFF#8, 0xFF#8]) (.instr (.bct 1 15 15 4095)) 4125 ∧
    completes less4091 (.instr (.bc 1 0 0 0x40)) 0x40 := by decide

/-- The two kinds of clause of both statements: a branch that is taken, and a record that takes none. -/
theorem witness_BranchTaken :
    BranchTaken (run0 2 0 0 []) (.instr (.bct 1 15 15 4095)) ∧
    BranchTaken less4091 (.instr (.bc 1 0 0 0x40)) ∧
    ¬ BranchTaken (run0 1 0 0 []) (.instr (.bct 1 0 0 0x40)) ∧
    ¬ BranchTaken less0 (.instr (.bc 14 0 0 0x40)) ∧
    ¬ BranchTaken less4092 (.instr (.bc 1 0 0 0x40)) := by
  refine ⟨.inl ⟨_, _, _, _, rfl, by decide⟩, .inr ⟨_, _, _, _, rfl, by decide, by decide⟩, ?_, ?_, ?_⟩ <;>
    rintro (⟨_, _, _, _, h, h'⟩ | ⟨_, _, _, _, h, h'⟩) <;> cases h <;> revert h' <;> decide

/-- The four advances of the IA, and branches not taken and taken. -/
theorem witness_IaMovesByFormatOrBranch :
    let completes (s : State) (d : Decoded) (ia : Nat) := s.status = .running ∧
      s.fetchDecode defaultOpMap = .ok d ∧
      nextSat (cycle defaultOpMap s) (fun t => !t.faulted && t.ia == ia) = true
    completes State.reset (.instr (.halt 0)) 0 ∧
    completes (run0 0 0 0 [0x1A#8, 0x12#8]) (.instr (.ar 1 2)) 2 ∧
    completes (run0 0 0 0 [0x41#8, 0x10#8, 0x0F#8, 0xFE#8]) (.instr (.la 1 0 0 4094)) 4 ∧
    completes (run0 0 0 0 [0x41#8, 0x10#8, 0x0F#8, 0xFF#8]) (.instr (.la 1 0 0 4095)) 4095 ∧
    completes less0 (.instr (.bc 14 0 0 0x40)) 4 ∧ completes less4092 (.instr (.bc 1 0 0 0x40)) 4096 ∧
    completes (run0 2 0 0 [0x46#8, 0x1F#8, 0xFF#8, 0xFF#8]) (.instr (.bct 1 15 15 4095)) 4125 ∧
    completes less4091 (.instr (.bc 1 0 0 0x40)) 0x40 := by decide

/-- Two states that differ in the cache, the tallies, the record and the events alone: one pair whose cycle
answers a next state, one pair whose cycle answers its fault. -/
theorem witness_CacheAndTalliesNeverInfluence :
    let s := run0 1 2 3 [0x58#8, 0x10#8, 0x00#8, 0x20#8]
    let s' := ((s.cacheAccess 0x20).emit s.traceEvent).countRead
    let f := { s with status := .fault (.fetchOutOfRange 4096) }
    let f' := { s' with status := .fault (.fetchOutOfRange 4096) }
    SameArchitecture s s' ∧ s ≠ s' ∧ (∃ t, cycle defaultOpMap s = .next t ∧ (t.cache != s.cache) = true) ∧
    SameArchitecture f f' ∧ cycle defaultOpMap f = .fault (.fetchOutOfRange 4096) :=
  ⟨⟨rfl, rfl, rfl, rfl, rfl, rfl, rfl⟩, by decide,
    next_of_nextSat (p := fun t => t.cache != (run0 1 2 3 [0x58#8, 0x10#8, 0x00#8, 0x20#8]).cache)
      (by decide),
    ⟨rfl, rfl, rfl, rfl, rfl, rfl, rfl⟩, rfl⟩

/-- The last address a word fits. -/
theorem witness_BigEndianWords : (run0 1 2 3 [0x18#8]).mem.wf = true ∧ 4092 + 3 ≤ 4095 := by decide

theorem witness_CanonicalMemoriesThatReadAlikeAreEqual :
    let m : Memory := [(0, 0x18#8), (4095, 0xFF#8)]
    let m' : Memory := Memory.write [(4095, 0xFF#8)] 0 0x18#8
    m.wf = true ∧ m'.wf = true ∧ ∀ a : Nat, m.read a = m'.read a :=
  ⟨by decide, by decide, fun _ => rfl⟩

/-! The caches of the cache statements: set 0 empty, with one valid line, and with two. -/

/-- A cache with valid lines in set 0 alone meets the invariant if those two lines do. -/
theorem ordered_of_set0 (c : Cache)
    (h : ∀ i : Fin 16, i ≠ 0 → (c.line .bank0 i).valid = false ∧ (c.line .bank1 i).valid = false)
    (h0 : (c.line .bank0 0).valid = true →
      1 ≤ (c.line .bank0 0).recency ∧ (c.line .bank0 0).recency ≤ c.acc)
    (h1 : (c.line .bank1 0).valid = true →
      1 ≤ (c.line .bank1 0).recency ∧ (c.line .bank1 0).recency ≤ c.acc)
    (hr : (c.line .bank0 0).valid = true → (c.line .bank1 0).valid = true →
      (c.line .bank0 0).recency ≠ (c.line .bank1 0).recency ∧
      (c.line .bank0 0).tag ≠ (c.line .bank1 0).tag) : CacheOrdered c := by
  have z : ∀ (b : Bank) (i : Fin 16), (c.line b i).valid = true → i = 0 := by
    intro b i hv
    by_contra hi
    cases b <;> simp [h i hi] at hv
  refine ⟨?_, ?_, ?_⟩
  · intro b i hv
    obtain rfl := z b i hv
    cases b
    · exact h0 hv
    · exact h1 hv
  · intro b b' i i' hne hv hv'
    obtain rfl := z b i hv
    obtain rfl := z b' i' hv'
    cases b <;> cases b'
    · exact absurd rfl hne
    · exact (hr hv hv').1
    · exact fun e => (hr hv' hv).1 e.symm
    · exact absurd rfl hne
  · intro i hv hv'
    obtain rfl := z _ i hv
    exact (hr hv hv').2

/-- The state after one access to tag 0 of set 0, and after a second one to tag 1 (V-C4). -/
def cached1 : State := State.reset.cacheAccess 0
def cached2 : State := cached1.cacheAccess 0x80

theorem reset_ordered : CacheOrdered State.reset.cache :=
  ordered_of_set0 _ (by decide) (by decide) (by decide) (by decide)
theorem cached1_ordered : CacheOrdered cached1.cache :=
  ordered_of_set0 _ (by decide) (by decide) (by decide) (by decide)
theorem cached2_ordered : CacheOrdered cached2.cache :=
  ordered_of_set0 _ (by decide) (by decide) (by decide) (by decide)
theorem cached2_touched_ordered : CacheOrdered (cached2.cacheAccess 0).cache :=
  ordered_of_set0 _ (by decide) (by decide) (by decide) (by decide)

/-- A hit; and a miss with both banks invalid, with bank 0 valid, with bank 0 the older, with bank 1 the older. -/
theorem witness_CacheAccessProcedure :
    (CacheOrdered cached2.cache ∧ (0 : Fin 16).val = 0x07 / 8 % 16 ∧
      (cached2.cache.line .bank0 0).valid = true ∧ (cached2.cache.line .bank0 0).tag = 0x07 / 128) ∧
    (CacheOrdered State.reset.cache ∧ (State.reset.cache.line .bank0 0).valid = false) ∧
    (CacheOrdered cached1.cache ∧ (0 : Fin 16).val = 0x80 / 8 % 16 ∧
      (cached1.cache.line .bank0 0).valid = true ∧ (cached1.cache.line .bank0 0).tag ≠ 0x80 / 128 ∧
      (cached1.cache.line .bank1 0).valid = false) ∧
    ((0 : Fin 16).val = 0x100 / 8 % 16 ∧
      (cached2.cache.line .bank0 0).tag ≠ 0x100 / 128 ∧ (cached2.cache.line .bank1 0).valid = true ∧
      (cached2.cache.line .bank1 0).tag ≠ 0x100 / 128 ∧
      ¬ (cached2.cache.line .bank1 0).recency < (cached2.cache.line .bank0 0).recency) ∧
    (CacheOrdered (cached2.cacheAccess 0).cache ∧
      ((cached2.cacheAccess 0).cache.line .bank0 0).tag ≠ 0x100 / 128 ∧
      ((cached2.cacheAccess 0).cache.line .bank1 0).tag ≠ 0x100 / 128 ∧
      ((cached2.cacheAccess 0).cache.line .bank1 0).recency <
        ((cached2.cacheAccess 0).cache.line .bank0 0).recency) :=
  ⟨⟨cached2_ordered, by decide⟩, ⟨reset_ordered, by decide⟩, ⟨cached1_ordered, by decide⟩, by decide,
    ⟨cached2_touched_ordered, by decide⟩⟩

/-- The last address a word fits, and the store's bounds at 4092 + 4095. -/
theorem witness_AddressSplitAndBounds :
    rxEa 15 15 4062 ≤ 4092 ∧
    (stAccess (run0 0 4092 0 []) 1 0 2 4095).store +
      (stAccess (run0 0 4092 0 []) 1 0 2 4095).bytes.length ≤ 4096 := by decide

theorem witness_RepeatedAccessHits :
    CacheOrdered cached2.cache ∧ 0x20 / 8 % 16 = 0x27 / 8 % 16 ∧ 0x20 / 128 = 0x27 / 128 :=
  ⟨cached2_ordered, by decide⟩

theorem witness_ThirdTagEvictsLeastRecent :
    CacheOrdered cached2.cache ∧ 0x000 / 8 % 16 = 0x080 / 8 % 16 ∧ 0x080 / 8 % 16 = 0x100 / 8 % 16 ∧
    0x000 / 128 ≠ 0x080 / 128 ∧ 0x080 / 128 ≠ 0x100 / 128 ∧ 0x000 / 128 ≠ 0x100 / 128 :=
  ⟨cached2_ordered, by decide⟩

/-- The step of the invariants' witnesses: an ST that misses the cache, in a state that has run a load. -/
def storing : State := run0 0xAABBCCDD 0x100 0 [0x50#8, 0x10#8, 0x20#8, 0x00#8]

theorem storing_steps : ∃ t, step storing = .next t ∧
    (t.cache != storing.cache && t.mem != storing.mem && t.tally.memWrites == 1) = true :=
  next_of_nextSat (p := fun t => t.cache != storing.cache && t.mem != storing.mem && t.tally.memWrites == 1)
    (by decide)

theorem witness_StepKeepsMemoryCanonical : MemoryCanonical storing ∧ ∃ t, step storing = .next t :=
  ⟨by unfold MemoryCanonical; decide, storing_steps.imp fun _ h => h.1⟩

/-- A step that sets the halt flag. -/
theorem witness_StepKeepsHaltAgreement : HaltAgrees State.reset ∧
    ∃ t, step State.reset = .next t ∧ (t.status == .halted) = true :=
  ⟨by unfold HaltAgrees; decide, next_of_nextSat (by decide)⟩

theorem witness_StepKeepsCacheOrdered : CacheOrdered storing.cache ∧ ∃ t, step storing = .next t :=
  ⟨reset_ordered, storing_steps.imp fun _ h => h.1⟩

theorem witness_StepKeepsTalliesBalanced : TallyBalanced storing ∧ ∃ t, step storing = .next t :=
  ⟨⟨rfl, rfl, rfl, rfl, by decide, by decide, by decide⟩, storing_steps.imp fun _ h => h.1⟩

/-- A step whose displacement of 4095 advances the IA by 4095. -/
theorem witness_StepKeepsPcIaBounded :
    let s := run0 0 0 0 [0x41#8, 0x10#8, 0x0F#8, 0xFF#8]
    PcIaBounded s ∧ ∃ t, step s = .next t ∧ (t.ia == 4095) = true :=
  ⟨⟨by decide, 0, by decide⟩, next_of_nextSat (by decide)⟩

/-- The longest image that fits, and the shortest that does not. -/
theorem witness_BootPlacesImage :
    (List.replicate 4096 0x18#8).length ≤ 4096 ∧ 4096 < (List.replicate 4097 0x18#8).length := by
  simp only [List.length_replicate]
  decide

end Sys2Proof.Machine.Tests
end

section
/-!
PROOFS. The state after reset meets every invariant, each said once; no line of its cache is valid.
-/

namespace Sys2Proof.Machine

/-! ### The state after reset (R230) -/

@[simp] theorem Cache.line_reset (b : Bank) (i : Fin 16) : Cache.reset.line b i = Line.reset := by
  cases b <;> simp [Cache.line, Cache.reset]

theorem Cache.valid_line_reset (b : Bank) (i : Fin 16) : (Cache.reset.line b i).valid = false := by
  rw [Cache.line_reset]; rfl

@[simp] theorem State.readByte_reset (a : Nat) : State.reset.readByte a = 0#8 := rfl

theorem haltAgrees_reset : HaltAgrees State.reset := by
  simp [HaltAgrees, State.reset]

/-- A cache without a valid line meets the conditions on valid lines vacuously. -/
theorem cacheOrdered_of_none_valid {c : Cache} (h : ∀ b i, (c.line b i).valid = false) : CacheOrdered c where
  stamped b i hv := absurd hv (by simp [h b i])
  stampsDistinct b _ i _ _ hv _ := absurd hv (by simp [h b i])
  tagsDistinct i hv _ := absurd hv (by simp [h .bank0 i])

theorem cacheOrdered_reset : CacheOrdered State.reset.cache :=
  cacheOrdered_of_none_valid Cache.valid_line_reset

/-- Every tally is 0, so both sides of each balance are. -/
theorem tallyBalanced_reset : TallyBalanced State.reset where
  accesses := rfl
  dataAccesses := rfl
  reads := rfl
  writes := rfl
  takenBct := Nat.le_refl 0
  takenBc := Nat.le_refl 0
  fetched := Nat.le_refl 0

/-- PC and IA are 0, after no cycle. -/
theorem pcIaBounded_reset : PcIaBounded State.reset :=
  ⟨Nat.zero_le _, 0, Nat.zero_le _, Nat.zero_le _, Nat.zero_le _⟩

end Sys2Proof.Machine
end

section
/-!
PROOFS. Placing an image: what memory reads afterwards, and that it changes memory alone, so that an
invariant over the other fields carries over from the state before.
-/

namespace Sys2Proof.Machine

variable {s : State} {image : List Byte}

/-! ### What an image changes (R232) -/

theorem State.withImage_eq (s : State) (image : List Byte) :
    s.withImage image = { s with mem := (s.withImage image).mem } := rfl

theorem State.readByte_withImage_inside (hm : MemoryCanonical s) (hfit : image.length ≤ memSize) {k : Nat}
    (hk : k < image.length) : (s.withImage image).readByte k = image[k] := by
  have h := Memory.read_writeBytes_inside (a := 0) image hm (by omega) hk
  rwa [Nat.zero_add] at h

theorem State.readByte_withImage_outside (s : State) {k : Nat} (hk : image.length ≤ k) :
    (s.withImage image).readByte k = s.readByte k :=
  Memory.read_writeBytes_outside s.mem 0 image (.inr (by omega))

/-! ### Invariants kept by placing an image -/

theorem memoryCanonical_withImage (hm : MemoryCanonical s) (hfit : image.length ≤ memSize) :
    MemoryCanonical (s.withImage image) :=
  Memory.writeBytes_wf image hm (by omega)

theorem haltAgrees_withImage (h : HaltAgrees s) : HaltAgrees (s.withImage image) := h

theorem cacheOrdered_withImage (h : CacheOrdered s.cache) : CacheOrdered (s.withImage image).cache := h

theorem tallyBalanced_withImage (h : TallyBalanced s) : TallyBalanced (s.withImage image) where
  accesses := h.accesses
  dataAccesses := h.dataAccesses
  reads := h.reads
  writes := h.writes
  takenBct := h.takenBct
  takenBc := h.takenBc
  fetched := h.fetched

theorem pcIaBounded_withImage (h : PcIaBounded s) : PcIaBounded (s.withImage image) := h

/-! ### When a run starts (R7, R233) -/

theorem State.boot_of_fits (h : image.length ≤ memSize) :
    State.boot image = some (State.reset.withImage image) := by
  simp [State.boot, imageFits, h]

theorem State.boot_of_too_long (h : memSize < image.length) : State.boot image = none := by
  simp [State.boot, imageFits, h]

end Sys2Proof.Machine
end

section
/-!
PROOFS. The statements on the block's interface (spec/00_scope.md): the image it takes and the exit status
it reports.
-/

namespace Sys2Proof.Machine

/-- Settles O58: the image is written over the zero memory of reset, and reset meets every invariant. -/
theorem bootPlacesImage : Obligations.BootPlacesImage := by
  unfold Obligations.BootPlacesImage
  intro image
  constructor
  · intro hfit
    refine ⟨State.reset.withImage image, State.boot_of_fits hfit, ?placed, ?zero,
      State.withImage_eq _ _, ?canonical,
      haltAgrees_withImage haltAgrees_reset, cacheOrdered_withImage cacheOrdered_reset,
      tallyBalanced_withImage tallyBalanced_reset, pcIaBounded_withImage pcIaBounded_reset⟩
    case placed => exact fun k hk => State.readByte_withImage_inside State.reset_mem_wf hfit hk
    case zero => exact fun k hk => (State.readByte_withImage_outside _ hk).trans (State.readByte_reset k)
    case canonical => exact memoryCanonical_withImage State.reset_mem_wf hfit
  · exact State.boot_of_too_long

/-- Settles O59: each clause is one case of R9's exit status or of R205's numbering. -/
theorem exitStatusAndCauseCodes : Obligations.ExitStatusAndCauseCodes := by
  unfold Obligations.ExitStatusAndCauseCodes
  refine ⟨rfl, rfl, rfl, ?modelFault, rfl, rfl, rfl, ?fetchFault, ?dataFault⟩
  case modelFault => exact fun _ => rfl
  case fetchFault => exact fun _ => rfl
  case dataFault => exact fun _ _ => rfl

end Sys2Proof.Machine
end

section
/-!
PROOFS. Facts about fetching and the handlers' end states that several statements on the state share:
how far a decoded instruction reaches, which fields a completed handler writes, and which tallies count.
-/

namespace Sys2Proof

/-- An advance of the IA comes with one of the PC by at least 2: only the halt form is shorter, and it does
not advance the IA (R86, R87). -/
theorem Decoded.iaAdvance_eq_zero_or (d : Decoded) : d.iaAdvance = 0 ∨ 2 ≤ d.length := by
  rcases d with i | _ | _
  · cases i
    case halt => exact .inl rfl
    all_goals exact .inr (by simp [Decoded.length, Decoded.format, Instr.format, Format.length])
  all_goals exact .inr (by simp [Decoded.length, Decoded.format, Format.length])

/-- The raw sum of two nibbles and a displacement (R85). -/
theorem rxEa_le (x2 b2 : Nibble) (d2 : Disp) : rxEa x2 b2 d2 ≤ 4125 := by
  have := x2.isLt
  have := b2.isLt
  have := d2.isLt
  unfold rxEa
  omega

end Sys2Proof

namespace Sys2Proof.Machine

variable {om : OpMap} {s u : State} {i : Instr} {d : Decoded}

/-! ### Decoding stays in memory (R80, R86, R200) -/

theorem State.lt_memSize_of_fetch8_ok {a : Nat} {b : Byte} (h : s.fetch8 a = .ok b) : a < memSize := by
  by_contra ha
  rw [s.fetch8_error (Nat.le_of_not_lt ha)] at h
  cases h

/-- What a decode that succeeds has read: every byte of its record lies in memory. -/
theorem State.fetchDecode_ok_end (h : s.fetchDecode om = .ok d) : s.pc + d.length ≤ memSize := by
  unfold State.fetchDecode decodeFrom at h
  simp only [bind, Except.bind, pure, Except.pure] at h
  split at h
  · cases h
  · next op h0 =>
    split at h
    · cases h
      exact State.lt_memSize_of_fetch8_ok h0
    · split at h
      · split at h
        · cases h
        · next b1 h1 =>
          cases h
          rw [Decoded.length, (recordRR_fields ..).1]
          exact State.lt_memSize_of_fetch8_ok h1
      · repeat' split at h
        all_goals cases h
        next h3 =>
          rw [Decoded.length, (recordRX_fields ..).1]
          exact State.lt_memSize_of_fetch8_ok h3

/-! ### The fields a completed handler writes -/

/-- Only CR, AR, SR and C write the condition code (R26). -/
theorem Ran.cc_kept_or (h : Ran s i u) :
    u.cc = s.cc ∨ i.op = some .cr ∨ i.op = some .ar ∨ i.op = some .sr ∨ i.op = some .c := by
  cases h
  case cr => exact .inr (.inl rfl)
  case ar => exact .inr (.inr (.inl rfl))
  case sr => exact .inr (.inr (.inr (.inl rfl)))
  case c => exact .inr (.inr (.inr (.inr rfl)))
  all_goals exact .inl rfl

/-- Writing a register changes no other one. -/
theorem State.eq_of_reg_setReg_ne {q r : Nibble} {v : Word} (h : (s.setReg r v).reg q ≠ s.reg q) : q = r := by
  by_contra hq
  exact h (s.reg_setReg_other v hq)

/-- Only LR, AR, SR, LA, BCT and L write a register, their R1 operand (R22). -/
theorem Ran.writer_of_reg_ne {r : Nibble} (h : Ran s i u) (hr : u.reg r ≠ s.reg r) :
    (∃ q : Nibble, i = .lr r q ∨ i = .ar r q ∨ i = .sr r q) ∨
    (∃ (x b : Nibble) (d : Disp), i = .la r x b d ∨ i = .bct r x b d ∨ i = .l r x b d) := by
  cases h
  case lr r1 r2 =>
    cases State.eq_of_reg_setReg_ne hr
    exact .inl ⟨r2, .inl rfl⟩
  case ar r1 r2 =>
    cases State.eq_of_reg_setReg_ne hr
    exact .inl ⟨r2, .inr (.inl rfl)⟩
  case sr r1 r2 =>
    cases State.eq_of_reg_setReg_ne hr
    exact .inl ⟨r2, .inr (.inr rfl)⟩
  case la r1 x2 b2 d2 =>
    cases State.eq_of_reg_setReg_ne hr
    exact .inr ⟨x2, b2, d2, .inl rfl⟩
  case bctTaken r1 x2 b2 d2 _ =>
    cases State.eq_of_reg_setReg_ne hr
    exact .inr ⟨x2, b2, d2, .inr (.inl rfl)⟩
  case bctNotTaken r1 x2 b2 d2 _ =>
    cases State.eq_of_reg_setReg_ne hr
    exact .inr ⟨x2, b2, d2, .inr (.inl rfl)⟩
  case l r1 x2 b2 d2 _ =>
    cases State.eq_of_reg_setReg_ne hr
    exact .inr ⟨x2, b2, d2, .inr (.inr rfl)⟩
  all_goals exact absurd rfl hr

/-- The halt flag and the status change by HALT, together, or by the fatal BC, the status alone (R190, R161). -/
theorem Ran.status_cases (h : Ran s i u) :
    (u.status = s.status ∧ u.halted = s.halted) ∨ (u.status = .halted ∧ u.halted = true) ∨
    (u.status = .fatalBC ∧ u.halted = s.halted) := by
  cases h
  case halt => exact .inr (.inl ⟨rfl, rfl⟩)
  case bcFatal => exact .inr (.inr ⟨rfl, rfl⟩)
  all_goals exact .inl ⟨rfl, rfl⟩

/-- PC and IA end where decode put them, or both at a raw effective address (R86, R87, R163). -/
theorem Ran.pc_ia_cases (h : Ran s i u) :
    (u.pc = s.pc + (Decoded.instr i).length ∧ u.ia = s.ia + (Decoded.instr i).iaAdvance) ∨
    (∃ (x2 b2 : Nibble) (d2 : Disp), u.pc = rxEa x2 b2 d2 ∧ u.ia = rxEa x2 b2 d2) := by
  cases h
  case bctTaken r1 x2 b2 d2 _ => exact .inr ⟨x2, b2, d2, rfl, rfl⟩
  case bcTaken m1 x2 b2 d2 _ _ => exact .inr ⟨x2, b2, d2, rfl, rfl⟩
  all_goals exact .inl ⟨rfl, rfl⟩

/-! ### Which opcode tally counts (R114) -/

theorem OpTally.bump_bct (t : OpTally) (m : Op) : (t.bump m).bct = t.bct + if m = .bct then 1 else 0 := by
  cases m <;> rfl
theorem OpTally.bump_bc (t : OpTally) (m : Op) : (t.bump m).bc = t.bc + if m = .bc then 1 else 0 := by
  cases m <;> rfl
theorem OpTally.bump_st (t : OpTally) (m : Op) : (t.bump m).st = t.st + if m = .st then 1 else 0 := by
  cases m <;> rfl
theorem OpTally.bump_l (t : OpTally) (m : Op) : (t.bump m).l = t.l + if m = .l then 1 else 0 := by
  cases m <;> rfl
theorem OpTally.bump_c (t : OpTally) (m : Op) : (t.bump m).c = t.c + if m = .c then 1 else 0 := by
  cases m <;> rfl

/-- One dispatch counts once in the sum. -/
@[simp] theorem OpTally.total_bump (t : OpTally) (m : Op) : (t.bump m).total = t.total + 1 := by
  cases m <;> simp only [OpTally.bump, OpTally.total] <;> omega

end Sys2Proof.Machine
end

section
/-!
PROOFS. The tallies in balance (spec/10_state.md R30): one rule for each way a cycle counts, from which every
handler's end state is read off.
-/

namespace Sys2Proof.Machine

variable {s t u : State} {i : Instr}

/-- The balance speaks of the cache and the tallies alone. -/
theorem TallyBalanced.congr (hb : TallyBalanced s) (hc : t.cache = s.cache) (ht : t.tally = s.tally) :
    TallyBalanced t := by
  obtain ⟨accesses, dataAccesses, reads, writes, takenBct, takenBc, fetched⟩ := hb
  constructor <;> simpa only [hc, ht]

/-- A fetch without a dispatch (R81, R115). -/
theorem TallyBalanced.fetch (hb : TallyBalanced s) (d : Decoded) : TallyBalanced (s.decodeAdvance d) :=
  { hb with fetched := Nat.le_succ_of_le hb.fetched }

/-- A fetch and the dispatch of an opcode that accesses no data (R81, R114). -/
theorem TallyBalanced.dispatch (hb : TallyBalanced s) (d : Decoded) {m : Op} (hst : m ≠ .st) (hl : m ≠ .l)
    (hc : m ≠ .c) : TallyBalanced ((s.decodeAdvance d).countExec m) where
  accesses := hb.accesses
  dataAccesses := hb.dataAccesses
  reads := by simpa [OpTally.bump_l, OpTally.bump_c, hl, hc] using hb.reads
  writes := by simpa [OpTally.bump_st, hst] using hb.writes
  takenBct := by
    simpa [OpTally.bump_bct] using Nat.le_add_right_of_le hb.takenBct
  takenBc := by
    simpa [OpTally.bump_bc] using Nat.le_add_right_of_le hb.takenBc
  fetched := by simpa using hb.fetched

/-- A dispatch of BCT that branches (R155). -/
theorem TallyBalanced.dispatchTakenBct (hb : TallyBalanced s) (d : Decoded) :
    TallyBalanced ((s.decodeAdvance d).countExec .bct).countTakenBct :=
  { hb.dispatch d (m := .bct) nofun nofun nofun with takenBct := Nat.succ_le_succ hb.takenBct }

/-- A dispatch of BC that branches (R160). -/
theorem TallyBalanced.dispatchTakenBc (hb : TallyBalanced s) (d : Decoded) :
    TallyBalanced ((s.decodeAdvance d).countExec .bc).countTakenBc :=
  { hb.dispatch d (m := .bc) nofun nofun nofun with takenBc := Nat.succ_le_succ hb.takenBc }

/-- A dispatch of ST: one access, one write (R62, R170). -/
theorem TallyBalanced.dispatchWrite (hb : TallyBalanced s) (d : Decoded) (a : Nat) :
    TallyBalanced (((s.decodeAdvance d).countExec .st).cacheAccess a).countWrite where
  accesses := by simpa [Tallies.countCache_total] using hb.accesses
  dataAccesses := by simpa [Tallies.countCache_eq, ← Nat.add_assoc] using hb.dataAccesses
  reads := by simpa [Tallies.countCache_eq, OpTally.bump_l, OpTally.bump_c] using hb.reads
  writes := by simpa [Tallies.countCache_eq, OpTally.bump_st] using hb.writes
  takenBct := by simpa [Tallies.countCache_eq, OpTally.bump_bct] using hb.takenBct
  takenBc := by simpa [Tallies.countCache_eq, OpTally.bump_bc] using hb.takenBc
  fetched := by simpa [Tallies.countCache_eq] using hb.fetched

/-- A dispatch of L or C: one access, one read (R62, R180, R185). -/
theorem TallyBalanced.dispatchRead (hb : TallyBalanced s) (d : Decoded) (a : Nat) {m : Op}
    (hm : m = .l ∨ m = .c) :
    TallyBalanced (((s.decodeAdvance d).countExec m).cacheAccess a).countRead where
  accesses := by simpa [Tallies.countCache_total] using hb.accesses
  dataAccesses := by
    have := hb.dataAccesses
    simp [Tallies.countCache_eq]
    omega
  reads := by
    have := hb.reads
    obtain rfl | rfl := hm <;> simp [Tallies.countCache_eq, OpTally.bump_l, OpTally.bump_c] <;> omega
  writes := by
    obtain rfl | rfl := hm <;> simpa [Tallies.countCache_eq, OpTally.bump_st] using hb.writes
  takenBct := by
    obtain rfl | rfl := hm <;> simpa [Tallies.countCache_eq, OpTally.bump_bct] using hb.takenBct
  takenBc := by
    obtain rfl | rfl := hm <;> simpa [Tallies.countCache_eq, OpTally.bump_bc] using hb.takenBc
  fetched := by simpa [Tallies.countCache_eq] using hb.fetched

/-- Every handler's end state is in balance: each counts by one of the rules above. -/
theorem Ran.tallyBalanced (h : Ran s i u) (hb : TallyBalanced s) : TallyBalanced u := by
  cases h
  case st => exact (hb.dispatchWrite _ _).congr rfl rfl
  case l => exact (hb.dispatchRead _ _ (.inl rfl)).congr rfl rfl
  case c => exact (hb.dispatchRead _ _ (.inr rfl)).congr rfl rfl
  case bctTaken => exact (hb.dispatchTakenBct _).congr rfl rfl
  case bcTaken => exact (hb.dispatchTakenBc _).congr rfl rfl
  case halt g => exact (hb.fetch (.instr (.halt g))).congr rfl rfl
  case lr => exact (hb.dispatch (m := .lr) _ nofun nofun nofun).congr rfl rfl
  case cr => exact (hb.dispatch (m := .cr) _ nofun nofun nofun).congr rfl rfl
  case ar => exact (hb.dispatch (m := .ar) _ nofun nofun nofun).congr rfl rfl
  case sr => exact (hb.dispatch (m := .sr) _ nofun nofun nofun).congr rfl rfl
  case la => exact (hb.dispatch (m := .la) _ nofun nofun nofun).congr rfl rfl
  case bctNotTaken => exact (hb.dispatch (m := .bct) _ nofun nofun nofun).congr rfl rfl
  case bcFatal => exact (hb.dispatch (m := .bc) _ nofun nofun nofun).congr rfl rfl
  case bcNotTaken => exact hb.dispatch _ nofun nofun nofun

end Sys2Proof.Machine
end

section
/-!
PROOFS. The bounds of PC and IA (spec/10_state.md R28): decode's advance, which needs the instruction to lie in
memory, and a taken branch, which starts the count of cycles again.
-/

namespace Sys2Proof.Machine

variable {s t : State}

/-- The bounds speak of PC and IA alone. -/
theorem PcIaBounded.congr (hb : PcIaBounded s) (hpc : t.pc = s.pc) (hia : t.ia = s.ia) : PcIaBounded t := by
  simpa only [PcIaBounded, hpc, hia]

/-- Decode's advance: the halt form leaves the IA, and any other instruction is one cycle more, of which
there are at most 2048 as the PC ends at most at 4096. -/
theorem PcIaBounded.decodeAdvance (hb : PcIaBounded s) {d : Decoded} (hend : s.pc + d.length ≤ memSize) :
    PcIaBounded (s.decodeAdvance d) := by
  obtain ⟨-, j, hj, hjpc, hjia⟩ := hb
  have hpc : s.pc + d.length ≤ 4096 := hend
  have hia := d.iaAdvance_le
  simp only [PcIaBounded, State.decodeAdvance_pc, State.decodeAdvance_ia]
  obtain hzero | hlen := d.iaAdvance_eq_zero_or
  · exact ⟨by omega, j, hj, by omega, by omega⟩
  · exact ⟨by omega, j + 1, by omega, by omega, by omega⟩

/-- A branch to a raw effective address: no cycle has gone by since. -/
theorem PcIaBounded.of_target {a : Nat} (ha : a ≤ 4125) (hpc : t.pc = a) (hia : t.ia = a) : PcIaBounded t :=
  ⟨by omega, 0, by omega, by omega, by omega⟩

/-- R28's bound: 4125, and 4095 for each of 2048 cycles. -/
theorem PcIaBounded.ia_le (hb : PcIaBounded s) : s.ia ≤ 8390685 := by
  obtain ⟨-, j, hj, -, hia⟩ := hb
  omega

end Sys2Proof.Machine
end

section
/-!
PROOFS. The statements on the state that follow one cycle (spec/10_state.md R22, R26, R28, R30, R31): each
goes through `cycle_cases` and one fact about the state a handler ends in.
-/

namespace Sys2Proof.Machine

/-- Settles O54: a handler's end state is in balance by `Ran.tallyBalanced`; an unassigned opcode counts a fetch
alone, and neither the end of the cycle nor a fault counts anything. -/
theorem stepKeepsTalliesBalanced : Obligations.StepKeepsTalliesBalanced := by
  unfold Obligations.StepKeepsTalliesBalanced
  intro s t hb hstep
  obtain ⟨-, rfl⟩ | ⟨f, -, rfl⟩ | ⟨i, u, -, -, hran, rfl⟩ | ⟨d, -, -, -, rfl⟩ := cycle_cases hstep
  · exact hb
  · exact hb.congr rfl rfl
  · exact (hran.tallyBalanced hb).congr u.endCycle_cache u.endCycle_tally
  · exact (hb.fetch d).congr (State.endCycle_cache _) (State.endCycle_tally _)

/-- Every step keeps the bounds of PC and IA. -/
theorem pcIaBounded_cycle {om : OpMap} {s t : State} (hb : PcIaBounded s) (hcycle : cycle om s = .next t) :
    PcIaBounded t := by
  obtain ⟨-, rfl⟩ | ⟨f, -, rfl⟩ | ⟨i, u, -, hdec, hran, rfl⟩ | ⟨d, -, hdec, -, rfl⟩ := cycle_cases hcycle
  · exact hb
  · exact hb
  · refine PcIaBounded.congr ?_ u.endCycle_pc u.endCycle_ia
    obtain ⟨hpc, hia⟩ | ⟨x2, b2, d2, hpc, hia⟩ := hran.pc_ia_cases
    · exact (hb.decodeAdvance (State.fetchDecode_ok_end hdec)).congr hpc hia
    · exact .of_target (rxEa_le x2 b2 d2) hpc hia
  · exact (hb.decodeAdvance (State.fetchDecode_ok_end hdec)).congr (State.endCycle_pc _) (State.endCycle_ia _)

/-- Settles O55: the bounds are kept, and they give R28's bound of the IA. -/
theorem stepKeepsPcIaBounded : Obligations.StepKeepsPcIaBounded := by
  unfold Obligations.StepKeepsPcIaBounded
  intro s t hb hstep
  have ht := pcIaBounded_cycle hb hstep
  exact ⟨ht, ht.ia_le⟩

/-- Settles O38: outside `Ran`'s four writers every case of a cycle leaves the condition code. -/
theorem onlyComparesAndArithmeticWriteCc : Obligations.OnlyComparesAndArithmeticWriteCc := by
  unfold Obligations.OnlyComparesAndArithmeticWriteCc
  intro om s t hcycle hcc
  obtain ⟨-, rfl⟩ | ⟨f, -, rfl⟩ | ⟨i, u, -, hdec, hran, rfl⟩ | ⟨d, -, -, -, rfl⟩ := cycle_cases hcycle
  · exact absurd rfl hcc
  · exact absurd rfl hcc
  · rw [u.endCycle_cc] at hcc
    exact ⟨i, hdec, hran.cc_kept_or.resolve_left hcc⟩
  · exact absurd (State.endCycle_cc _) hcc

/-- Settles O39: outside `Ran`'s six writers every case of a cycle leaves the registers. -/
theorem registerWritersAreTheTable : Obligations.RegisterWritersAreTheTable := by
  unfold Obligations.RegisterWritersAreTheTable
  intro om s t r hcycle hr
  obtain ⟨-, rfl⟩ | ⟨f, -, rfl⟩ | ⟨i, u, -, hdec, hran, rfl⟩ | ⟨d, -, -, -, rfl⟩ := cycle_cases hcycle
  · exact absurd rfl hr
  · exact absurd rfl hr
  · rw [u.reg_endCycle] at hr
    exact ⟨i, hdec, hran.writer_of_reg_ne hr⟩
  · exact absurd (State.reg_endCycle _ r) hr

/-- The agreement in a running state: the halt flag is not set. -/
theorem HaltAgrees.halted_of_running {s : State} (h : HaltAgrees s) (hr : s.status = .running) :
    s.halted = false := by
  simpa [HaltAgrees, hr] using h

/-- Settles O52: HALT sets flag and status together; every other cycle leaves the flag, and ends `running`, in
the fatal stop or in a fault. -/
theorem stepKeepsHaltAgreement : Obligations.StepKeepsHaltAgreement := by
  unfold Obligations.StepKeepsHaltAgreement
  intro s t hagree hstep
  obtain ⟨-, rfl⟩ | ⟨f, hr, rfl⟩ | ⟨i, u, hr, -, hran, rfl⟩ | ⟨d, hr, -, -, rfl⟩ := cycle_cases hstep
  · exact hagree
  · simp [HaltAgrees, hagree.halted_of_running hr]
  · obtain ⟨hs, hh⟩ | ⟨hs, hh⟩ | ⟨hs, hh⟩ := hran.status_cases
    · simpa [HaltAgrees, hs, hh] using hagree
    · simp [HaltAgrees, hs, hh]
    · simp [HaltAgrees, hs, hh, hagree.halted_of_running hr]
  · simpa [HaltAgrees] using hagree

/-- Settles O12: the run loop acts in `running` only, by the case of the status. -/
theorem terminalStatusIsFinal : Obligations.TerminalStatusIsFinal := by
  unfold Obligations.TerminalStatusIsFinal
  intro om s
  refine ⟨?halted, ?fatalBC, ?fault⟩
  case halted => intro h; simp [cycle, h]
  case fatalBC => intro h; simp [cycle, h]
  case fault => intro f h; simp [cycle, h]

end Sys2Proof.Machine
end

section
/-!
PROOFS. The cache, the tallies, the record and the events never influence the architecture (spec/10_state.md
R30, R35, spec/20_memory.md R63). `Alike` is kept by every update that a cycle is made of, so by every handler,
by `exec` and by the cycle.
-/

namespace Sys2Proof.Machine

/-- Two states agree on the architecture, and have emitted the same new events since their logs were `e`
and `e'`. -/
structure Alike (e e' : List Event) (s s' : State) : Prop where
  same : SameArchitecture s s'
  events : ∃ new : List Event, s.events = e ++ new ∧ s'.events = e' ++ new

/-- Two results of a handler: alike states, or the same fault. -/
inductive AlikeResult (e e' : List Event) : Except Fault State → Except Fault State → Prop
  | ok {t t' : State} (h : Alike e e' t t') : AlikeResult e e' (.ok t) (.ok t')
  | error (f : Fault) : AlikeResult e e' (.error f) (.error f)

/-- Two outcomes of a cycle: alike next states, or the same fault. -/
inductive AlikeOutcome (e e' : List Event) :
    Host.Outcome State Fault Refusal → Host.Outcome State Fault Refusal → Prop
  | next {t t' : State} (h : Alike e e' t t') : AlikeOutcome e e' (.next t) (.next t')
  | fault (f : Fault) : AlikeOutcome e e' (.fault f) (.fault f)

variable {e e' : List Event} {s s' : State}

/-- States of one architecture are alike from their own logs on. -/
theorem SameArchitecture.alike (h : SameArchitecture s s') : Alike s.events s'.events s s' :=
  ⟨h, [], (List.append_nil _).symm, (List.append_nil _).symm⟩

/-! ### What alike states read alike -/

theorem Alike.regs_eq (h : Alike e e' s s') : s.regs = s'.regs :=
  let ⟨⟨regs, _⟩, _⟩ := h
  regs

theorem Alike.reg_eq (h : Alike e e' s s') (q : Nibble) : s.reg q = s'.reg q :=
  State.reg_congr s' h.regs_eq q

theorem Alike.pc_eq (h : Alike e e' s s') : s.pc = s'.pc :=
  let ⟨⟨_, pc, _⟩, _⟩ := h
  pc

theorem Alike.ia_eq (h : Alike e e' s s') : s.ia = s'.ia :=
  let ⟨⟨_, _, ia, _⟩, _⟩ := h
  ia

theorem Alike.cc_eq (h : Alike e e' s s') : s.cc = s'.cc :=
  let ⟨⟨_, _, _, cc, _⟩, _⟩ := h
  cc

theorem Alike.status_eq (h : Alike e e' s s') : s.status = s'.status :=
  let ⟨⟨_, _, _, _, _, status, _⟩, _⟩ := h
  status

theorem Alike.readByte_eq (h : Alike e e' s s') (a : Nat) : s.readByte a = s'.readByte a :=
  let ⟨⟨_, _, _, _, _, _, mem⟩, _⟩ := h
  State.readByte_congr s' mem a

theorem Alike.readWord_eq (h : Alike e e' s s') (a : Nat) : s.readWord a = s'.readWord a := by
  simp only [State.readWord, h.readByte_eq]

theorem Alike.stAccess_eq (h : Alike e e' s s') (r1 x2 b2 : Nibble) (d2 : Disp) :
    stAccess s r1 x2 b2 d2 = stAccess s' r1 x2 b2 d2 := by
  simp only [stAccess, h.reg_eq]

/-- Fetching reads the PC and memory alone, never the cache (R80). -/
theorem Alike.fetchDecode_eq (h : Alike e e' s s') (om : OpMap) : s.fetchDecode om = s'.fetchDecode om := by
  simp only [State.fetchDecode, State.fetch8, h.readByte_eq, h.pc_eq]

/-! ### Updates of the architecture -/

theorem Alike.setReg (h : Alike e e' s s') (r : Nibble) {v v' : Word} (hv : v = v') :
    Alike e e' (s.setReg r v) (s'.setReg r v') := by
  obtain ⟨⟨regs, rest⟩, events⟩ := h
  exact ⟨⟨by simp only [State.setReg_regs, regs, hv], rest⟩, events⟩

theorem Alike.setCc (h : Alike e e' s s') {v v' : CondCode} (hv : v = v') :
    Alike e e' (s.setCc v) (s'.setCc v') := by
  obtain ⟨⟨regs, pc, ia, -, rest⟩, events⟩ := h
  exact ⟨⟨regs, pc, ia, hv, rest⟩, events⟩

theorem Alike.branchTo (h : Alike e e' s s') (a : Nat) : Alike e e' (s.branchTo a) (s'.branchTo a) := by
  obtain ⟨⟨regs, -, -, rest⟩, events⟩ := h
  exact ⟨⟨regs, rfl, rfl, rest⟩, events⟩

theorem Alike.writeBytes (h : Alike e e' s s') (a : Nat) (bytes : List Byte) :
    Alike e e' (s.writeBytes a bytes) (s'.writeBytes a bytes) := by
  obtain ⟨⟨regs, pc, ia, cc, halted, status, mem⟩, events⟩ := h
  exact ⟨⟨regs, pc, ia, cc, halted, status, by simp only [State.writeBytes_mem, mem]⟩, events⟩

theorem Alike.decodeAdvance (h : Alike e e' s s') (d : Decoded) :
    Alike e e' (s.decodeAdvance d) (s'.decodeAdvance d) := by
  obtain ⟨⟨regs, pc, ia, rest⟩, events⟩ := h
  exact ⟨⟨regs, congrArg (· + d.length) pc, congrArg (· + d.iaAdvance) ia, rest⟩, events⟩

theorem Alike.stopHalted (h : Alike e e' s s') : Alike e e' s.stopHalted s'.stopHalted := by
  obtain ⟨⟨regs, pc, ia, cc, -, -, mem⟩, events⟩ := h
  exact ⟨⟨regs, pc, ia, cc, rfl, rfl, mem⟩, events⟩

theorem Alike.takeFault (h : Alike e e' s s') (f : Fault) : Alike e e' (s.takeFault f) (s'.takeFault f) := by
  obtain ⟨⟨regs, pc, ia, cc, halted, -, mem⟩, events⟩ := h
  exact ⟨⟨regs, pc, ia, cc, halted, rfl, mem⟩, events⟩

/-! ### Events, which tell the architecture alone (R118, R161) -/

theorem Alike.emit (h : Alike e e' s s') {v v' : Event} (hv : v = v') :
    Alike e e' (s.emit v) (s'.emit v') := by
  obtain ⟨same, new, hnew, hnew'⟩ := h
  subst hv
  exact ⟨same, new ++ [v], by simp [hnew], by simp [hnew']⟩

theorem Alike.stopFatalBC (h : Alike e e' s s') : Alike e e' s.stopFatalBC s'.stopFatalBC := by
  have hdump : s.dumpEvent = s'.dumpEvent := by simp only [State.dumpEvent, h.regs_eq, h.ia_eq, h.cc_eq]
  obtain ⟨⟨regs, pc, ia, cc, halted, -, mem⟩, events⟩ := h.emit hdump
  exact ⟨⟨regs, pc, ia, cc, halted, rfl, mem⟩, events⟩

theorem Alike.endCycle (h : Alike e e' s s') : Alike e e' s.endCycle s'.endCycle := by
  have htrace : s.traceEvent = s'.traceEvent := by
    simp only [State.traceEvent, h.regs_eq, h.pc_eq, h.ia_eq, h.cc_eq]
  by_cases hr : s.status = .running
  · rw [s.endCycle_running hr, s'.endCycle_running (h.status_eq ▸ hr)]
    exact h.emit htrace
  · rw [s.endCycle_terminal hr, s'.endCycle_terminal (h.status_eq ▸ hr)]
    exact h

/-! ### Updates of the cache and the tallies, which the architecture does not see -/

theorem Alike.countExec (h : Alike e e' s s') (m : Op) : Alike e e' (s.countExec m) (s'.countExec m) :=
  ⟨h.same, h.events⟩

theorem Alike.countRead (h : Alike e e' s s') : Alike e e' s.countRead s'.countRead :=
  ⟨h.same, h.events⟩

theorem Alike.countWrite (h : Alike e e' s s') : Alike e e' s.countWrite s'.countWrite :=
  ⟨h.same, h.events⟩

theorem Alike.countTakenBct (h : Alike e e' s s') : Alike e e' s.countTakenBct s'.countTakenBct :=
  ⟨h.same, h.events⟩

theorem Alike.countTakenBc (h : Alike e e' s s') : Alike e e' s.countTakenBc s'.countTakenBc :=
  ⟨h.same, h.events⟩

theorem Alike.cacheAccess (h : Alike e e' s s') (a : Nat) : Alike e e' (s.cacheAccess a) (s'.cacheAccess a) :=
  ⟨h.same, h.events⟩

/-! ### The handlers that branch or can fault -/

theorem Alike.handleBct (h : Alike e e' s s') (r1 x2 b2 : Nibble) (d2 : Disp) :
    AlikeResult e e' (handleBct r1 x2 b2 d2 s) (handleBct r1 x2 b2 d2 s') := by
  have hu := h.setReg r1 (v := s.reg r1 - 1#32) rfl
  simp only [Machine.handleBct, ← h.reg_eq]
  split
  · exact .ok (hu.branchTo _).countTakenBct
  · exact .ok hu

theorem Alike.handleBc (h : Alike e e' s s') (m1 x2 b2 : Nibble) (d2 : Disp) :
    AlikeResult e e' (handleBc m1 x2 b2 d2 s) (handleBc m1 x2 b2 d2 s') := by
  simp only [Machine.handleBc, ← h.ia_eq, ← h.cc_eq]
  split
  · exact .ok h.stopFatalBC
  · split
    · exact .ok (h.branchTo _).countTakenBc
    · exact .ok h

/-- A range check before alike states: both pass it or both raise its fault. -/
theorem AlikeResult.of_checkRange (h : Alike e e' s s') (a n : Nat) :
    AlikeResult e e' (do checkRange a n; return s) (do checkRange a n; return s') := by
  by_cases hr : a + n ≤ memSize
  · rw [checkRange_ok hr]
    exact .ok h
  · rw [checkRange_error (Nat.lt_of_not_le hr)]
    exact .error _

theorem Alike.handleSt (h : Alike e e' s s') (r1 x2 b2 : Nibble) (d2 : Disp) :
    AlikeResult e e' (handleSt r1 x2 b2 d2 s) (handleSt r1 x2 b2 d2 s') := by
  simp only [Machine.handleSt, ← h.stAccess_eq]
  exact .of_checkRange ((h.cacheAccess _).writeBytes _ _).countWrite _ _

theorem Alike.handleL (h : Alike e e' s s') (r1 x2 b2 : Nibble) (d2 : Disp) :
    AlikeResult e e' (handleL r1 x2 b2 d2 s) (handleL r1 x2 b2 d2 s') :=
  .of_checkRange ((h.cacheAccess _).setReg r1 ((h.cacheAccess _).readWord_eq _)).countRead _ _

theorem Alike.handleC (h : Alike e e' s s') (r1 x2 b2 : Nibble) (d2 : Disp) :
    AlikeResult e e' (handleC r1 x2 b2 d2 s) (handleC r1 x2 b2 d2 s') :=
  .of_checkRange ((h.cacheAccess _).setCc (congrArg₂ cmp3 (h.reg_eq r1) (h.readWord_eq _))).countRead _ _

/-! ### The cycle -/

/-- The part of an instruction's cycle between decode and the end of the cycle: the dispatch is counted, then
the handler runs (R113, R114). -/
def dispatched : Instr → State → Except Fault State
  | .lr r1 r2, u => handleLr r1 r2 (u.countExec .lr)
  | .cr r1 r2, u => handleCr r1 r2 (u.countExec .cr)
  | .ar r1 r2, u => handleAr r1 r2 (u.countExec .ar)
  | .sr r1 r2, u => handleSr r1 r2 (u.countExec .sr)
  | .la r1 x2 b2 d2, u => handleLa r1 x2 b2 d2 (u.countExec .la)
  | .bct r1 x2 b2 d2, u => handleBct r1 x2 b2 d2 (u.countExec .bct)
  | .bc m1 x2 b2 d2, u => handleBc m1 x2 b2 d2 (u.countExec .bc)
  | .st r1 x2 b2 d2, u => handleSt r1 x2 b2 d2 (u.countExec .st)
  | .l r1 x2 b2 d2, u => handleL r1 x2 b2 d2 (u.countExec .l)
  | .c r1 x2 b2 d2, u => handleC r1 x2 b2 d2 (u.countExec .c)
  | .halt ignored, u => handleHalt ignored u

/-- `exec` is one cycle around the dispatched handler, for every instruction (R110). -/
theorem exec_eq_runCycle (i : Instr) (s : State) : exec i s = runCycle i (dispatched i) s := by
  cases i <;> rfl

theorem Alike.dispatched (h : Alike e e' s s') (i : Instr) :
    AlikeResult e e' (dispatched i s) (dispatched i s') := by
  cases i with
  | lr r1 r2 => exact .ok ((h.countExec .lr).setReg r1 (h.reg_eq r2))
  | cr r1 r2 => exact .ok ((h.countExec .cr).setCc (congrArg₂ cmp3 (h.reg_eq r1) (h.reg_eq r2)))
  | ar r1 r2 =>
    have hsum : s.reg r1 + s.reg r2 = s'.reg r1 + s'.reg r2 := by rw [h.reg_eq, h.reg_eq]
    exact .ok (((h.countExec .ar).setReg r1 hsum).setCc (congrArg sign3 hsum))
  | sr r1 r2 =>
    have hdiff : s.reg r1 - s.reg r2 = s'.reg r1 - s'.reg r2 := by rw [h.reg_eq, h.reg_eq]
    exact .ok (((h.countExec .sr).setReg r1 hdiff).setCc (congrArg sign3 hdiff))
  | la r1 x2 b2 d2 => exact .ok ((h.countExec .la).setReg r1 rfl)
  | bct r1 x2 b2 d2 => exact (h.countExec .bct).handleBct r1 x2 b2 d2
  | bc m1 x2 b2 d2 => exact (h.countExec .bc).handleBc m1 x2 b2 d2
  | st r1 x2 b2 d2 => exact (h.countExec .st).handleSt r1 x2 b2 d2
  | l r1 x2 b2 d2 => exact (h.countExec .l).handleL r1 x2 b2 d2
  | c r1 x2 b2 d2 => exact (h.countExec .c).handleC r1 x2 b2 d2
  | halt ignored => exact .ok h.stopHalted

/-- A cycle of one instruction keeps states alike: its handler starts in alike states, and ends in alike
states or in one fault. -/
theorem Alike.exec (h : Alike e e' s s') (i : Instr) : AlikeOutcome e e' (exec i s) (exec i s') := by
  have hresult := (h.decodeAdvance (.instr i)).dispatched i
  rw [exec_eq_runCycle, exec_eq_runCycle]
  unfold runCycle
  generalize Machine.dispatched i (s.decodeAdvance (.instr i)) = r at hresult ⊢
  generalize Machine.dispatched i (s'.decodeAdvance (.instr i)) = r' at hresult ⊢
  cases hresult with
  | ok ht => exact .next ht.endCycle
  | error f => exact .next (h.takeFault f)

theorem Alike.runningCycle (h : Alike e e' s s') (om : OpMap) :
    AlikeOutcome e e' (runningCycle om s) (runningCycle om s') := by
  unfold Machine.runningCycle
  rw [← h.fetchDecode_eq om]
  split
  · exact .next (h.takeFault _)
  · exact h.exec _
  · exact .next (h.decodeAdvance _).endCycle
  · exact .next (h.decodeAdvance _).endCycle

theorem Alike.cycle (h : Alike e e' s s') (om : OpMap) : AlikeOutcome e e' (cycle om s) (cycle om s') := by
  unfold Machine.cycle
  rw [← h.status_eq]
  split
  · exact h.runningCycle om
  · exact .next h
  · exact .next h
  · exact .fault _

/-- Settles O44: states of one architecture are alike from their own logs on, and a cycle keeps them so. -/
theorem cacheAndTalliesNeverInfluence : Obligations.CacheAndTalliesNeverInfluence := by
  unfold Obligations.CacheAndTalliesNeverInfluence
  intro om s s' hsame
  have halike := hsame.alike.cycle om
  constructor
  · intro f hfault
    rw [hfault] at halike
    generalize Machine.cycle om s' = outcome at halike ⊢
    cases halike
    rfl
  · intro t hnext
    rw [hnext] at halike
    generalize Machine.cycle om s' = outcome at halike ⊢
    obtain ⟨same, new, hnew, hnew'⟩ | _ := halike
    exact ⟨_, new, rfl, same, hnew, hnew'⟩

end Sys2Proof.Machine
end

section
/-!
PROOFS. Where an address falls in the cache (spec/20_memory.md R61), and the bounds of ST's cache address
(spec/43_rx_storage.md R171).
-/

namespace Sys2Proof.Machine

variable {a a' : Nat} {i : Fin 16}

/-! ### Set and tag -/

theorem setIndex_val (a : Nat) : (setIndex a).val = a / 8 % 16 := by
  have hmask : a / 8 &&& 15 = a / 8 % 16 := Nat.and_two_pow_sub_one_eq_mod (a / 8) 4
  simp [setIndex, Nat.shiftRight_eq_div_pow, hmask]

theorem tagOf_eq_div (a : Nat) : tagOf a = a / 128 := by
  simp [tagOf, Nat.shiftRight_eq_div_pow]

theorem eq_setIndex_iff : i = setIndex a ↔ i.val = a / 8 % 16 := by
  rw [Fin.ext_iff, setIndex_val]

theorem setIndex_eq_iff : setIndex a = setIndex a' ↔ a / 8 % 16 = a' / 8 % 16 := by
  rw [eq_setIndex_iff, setIndex_val]

theorem tagOf_eq_iff : tagOf a = tagOf a' ↔ a / 128 = a' / 128 := by
  rw [tagOf_eq_div, tagOf_eq_div]

/-- The largest cache address has tag 63. -/
theorem tagOf_le (h : a ≤ 8187) : tagOf a ≤ 63 := by
  rw [tagOf_eq_div]
  omega

/-! ### The three cases of ST (R171) -/

variable (s : State) (r1 : Nibble) {x2 b2 : Nibble} (d2 : Disp)

@[simp] theorem length_wordBytes (w : Word) : (wordBytes w).length = 4 := rfl

/-- Case (a): B2 is not zero. -/
theorem stAccess_caseA (x2 : Nibble) (hb : b2 ≠ 0#4) : stAccess s r1 x2 b2 d2 =
    { store := (s.reg b2).toNat
      cache := if x2 = 0#4 then (s.reg b2).toNat + d2.toNat else rxEa x2 b2 d2
      bytes := wordBytes (s.reg r1) } := by
  simp [stAccess, hb, rxEa, Nat.add_comm b2.toNat]

/-- Case (b): B2 and X2 are zero. -/
theorem stAccess_caseB : stAccess s r1 0#4 0#4 d2 =
    { store := d2.toNat, cache := d2.toNat, bytes := wordBytes (s.reg r1) } := by
  simp [stAccess, rxEa]

/-- Case (c): B2 alone is zero. -/
theorem stAccess_caseC (hx : x2 ≠ 0#4) : stAccess s r1 x2 0#4 d2 =
    { store := (s.reg x2).toNat, cache := (s.reg x2).toNat, bytes := [trunc8 (s.reg x2)] } := by
  simp [stAccess, hx]

variable {s r1 d2}

/-- Where an ST is in range its cache address is bounded; case (a) reaches the bound at 4092 + 4095 (D18). -/
theorem stAccess_cache_le
    (h : (stAccess s r1 x2 b2 d2).store + (stAccess s r1 x2 b2 d2).bytes.length ≤ 4096) :
    (stAccess s r1 x2 b2 d2).cache ≤ 8187 := by
  have hd := d2.isLt
  have hea := rxEa_le x2 b2 d2
  by_cases hb : b2 = 0#4
  · subst hb
    by_cases hx : x2 = 0#4
    · subst hx
      rw [stAccess_caseB]
      dsimp only
      omega
    · rw [stAccess_caseC s r1 d2 hx] at h ⊢
      dsimp only [List.length] at h ⊢
      omega
  · rw [stAccess_caseA s r1 d2 x2 hb] at h ⊢
    dsimp only [length_wordBytes] at h ⊢
    split <;> omega

end Sys2Proof.Machine
end

section
/-!
PROOFS. The one line that an access writes (spec/20_memory.md R60), and why an access keeps the cache ordered (R64).
Hit and miss are one case from `access_eq_setLine` on: either way the line of `accessBank` ends up valid, with the
address's tag and the newest stamp.
-/

namespace Sys2Proof.Machine

variable {c : Cache} {a a' : Nat} {b b' : Bank} {i : Fin 16}

/-- There are two banks: those that differ from a third one are the same. -/
theorem Bank.eq_of_ne_of_ne : ∀ {b b' b'' : Bank}, b ≠ b'' → b' ≠ b'' → b = b'
  | .bank0, .bank0, _, _, _ => rfl
  | .bank1, .bank1, _, _, _ => rfl
  | .bank0, .bank1, .bank0, h, _ => absurd rfl h
  | .bank0, .bank1, .bank1, _, h => absurd rfl h
  | .bank1, .bank0, .bank0, _, h => absurd rfl h
  | .bank1, .bank0, .bank1, h, _ => absurd rfl h

/-! ### When an address hits -/

/-- An address hits exactly where a valid line of its set holds its tag. -/
theorem Cache.hitBank_isSome_iff :
    (c.hitBank a).isSome = true ↔
      ∃ b, (c.line b (setIndex a)).valid = true ∧ (c.line b (setIndex a)).tag = tagOf a := by
  cases h : c.hitBank a with
  | some b => exact ⟨fun _ => ⟨b, Cache.hitBank_some h⟩, fun _ => rfl⟩
  | none => exact ⟨nofun, fun ⟨b, hvalid, htag⟩ => absurd htag (Cache.hitBank_none h b hvalid)⟩

/-- An address misses exactly where no valid line of its set holds its tag. -/
theorem Cache.hitBank_eq_none_iff :
    c.hitBank a = none ↔
      ∀ b, (c.line b (setIndex a)).valid = true → (c.line b (setIndex a)).tag ≠ tagOf a := by
  rw [← Option.not_isSome_iff_eq_none, Cache.hitBank_isSome_iff]
  simp only [not_exists, not_and, ne_eq]

/-- Addresses of one set and tag hit alike. -/
theorem Cache.hitBank_congr (c : Cache) (hset : setIndex a = setIndex a') (htag : tagOf a = tagOf a') :
    c.hitBank a = c.hitBank a' := by
  unfold Cache.hitBank
  rw [hset, htag]

/-- Two banks with valid lines in one set hold distinct tags (R64 (ii)), whichever is named first. -/
theorem CacheOrdered.tag_ne (h : CacheOrdered c) (hne : b ≠ b') (hv : (c.line b i).valid = true)
    (hv' : (c.line b' i).valid = true) : (c.line b i).tag ≠ (c.line b' i).tag := by
  cases b <;> cases b'
  case bank0.bank1 => exact h.tagsDistinct i hv hv'
  case bank1.bank0 => exact (h.tagsDistinct i hv' hv).symm
  all_goals exact absurd rfl hne

/-- In an ordered cache the bank that hits is the one whose line holds the tag. -/
theorem CacheOrdered.hitBank_eq_some (h : CacheOrdered c) (hvalid : (c.line b (setIndex a)).valid = true)
    (htag : (c.line b (setIndex a)).tag = tagOf a) : c.hitBank a = some b := by
  obtain ⟨b', hhit⟩ := Option.isSome_iff_exists.1 (Cache.hitBank_isSome_iff.2 ⟨b, hvalid, htag⟩)
  obtain ⟨hvalid', htag'⟩ := Cache.hitBank_some hhit
  have hbank : b' = b := by
    by_contra hne
    exact h.tag_ne hne hvalid' hvalid (htag'.trans htag.symm)
  rw [hhit, hbank]

/-! ### The line an access writes -/

/-- The bank whose line an access to `a` writes: the one that hits, else the victim. -/
def Cache.accessBank (c : Cache) (a : Nat) : Bank := (c.hitBank a).getD (c.victim (setIndex a))

theorem Cache.accessBank_of_hit (h : c.hitBank a = some b) : c.accessBank a = b := by
  simp [Cache.accessBank, h]

theorem Cache.accessBank_of_miss (h : c.hitBank a = none) : c.accessBank a = c.victim (setIndex a) := by
  simp [Cache.accessBank, h]

/-- An access counts, and writes one line: valid, with the address's tag, stamped with the new `acc`. On a hit the
line holds the first two already. -/
theorem Cache.access_eq_setLine (c : Cache) (a : Nat) :
    c.access a = c.tick.setLine (c.accessBank a) (setIndex a)
      { valid := true, tag := tagOf a, recency := c.acc + 1 } := by
  obtain ⟨b, hhit, heq⟩ | ⟨hmiss, heq⟩ := c.access_cases a
  · obtain ⟨hvalid, htag⟩ := Cache.hitBank_some hhit
    rw [heq, hvalid, htag, Cache.accessBank_of_hit hhit]
  · rw [heq, Cache.accessBank_of_miss hmiss]

@[simp] theorem Cache.line_access_same (c : Cache) (a : Nat) :
    (c.access a).line (c.accessBank a) (setIndex a) =
      { valid := true, tag := tagOf a, recency := c.acc + 1 } := by
  rw [Cache.access_eq_setLine, Cache.line_setLine, if_pos ⟨rfl, rfl⟩]

theorem Cache.line_access_other (h : (b, i) ≠ (c.accessBank a, setIndex a)) :
    (c.access a).line b i = c.line b i := by
  rw [Cache.access_eq_setLine, Cache.line_setLine, if_neg (fun e => h (Prod.ext e.1 e.2)), Cache.tick_line]

theorem Cache.line_access_otherBank (i : Fin 16) (h : b ≠ c.accessBank a) :
    (c.access a).line b i = c.line b i :=
  Cache.line_access_other fun e => h (congrArg Prod.fst e)

theorem Cache.line_access_otherSet (b : Bank) (h : i ≠ setIndex a) : (c.access a).line b i = c.line b i :=
  Cache.line_access_other fun e => h (congrArg Prod.snd e)

/-- The set's other line does not hold the tag: on a hit by R64 (ii), on a miss no line does. -/
theorem CacheOrdered.tag_ne_of_ne_accessBank (h : CacheOrdered c) (hne : b ≠ c.accessBank a)
    (hvalid : (c.line b (setIndex a)).valid = true) : (c.line b (setIndex a)).tag ≠ tagOf a := by
  cases hhit : c.hitBank a with
  | none => exact Cache.hitBank_none hhit b hvalid
  | some b' =>
    obtain ⟨hvalid', htag'⟩ := Cache.hitBank_some hhit
    rw [Cache.accessBank_of_hit hhit] at hne
    rw [← htag']
    exact h.tag_ne hne hvalid hvalid'

/-! ### An access keeps the cache ordered (R64 (i), (ii)) -/

/-- The next stamp is newer than that of every valid line. -/
theorem CacheOrdered.recency_lt (h : CacheOrdered c) (hvalid : (c.line b i).valid = true) :
    (c.line b i).recency < c.acc + 1 :=
  Nat.lt_succ_of_le (h.stamped b i hvalid).2

theorem CacheOrdered.access_stamped (h : CacheOrdered c) (a : Nat) (b : Bank) (i : Fin 16)
    (hvalid : ((c.access a).line b i).valid = true) :
    1 ≤ ((c.access a).line b i).recency ∧ ((c.access a).line b i).recency ≤ (c.access a).acc := by
  rw [Cache.access_acc]
  by_cases hw : (b, i) = (c.accessBank a, setIndex a)
  · cases hw
    simp
  · rw [Cache.line_access_other hw] at hvalid ⊢
    exact (h.stamped b i hvalid).imp_right Nat.le_succ_of_le

theorem CacheOrdered.access_stampsDistinct (h : CacheOrdered c) (a : Nat) (b b' : Bank) (i i' : Fin 16)
    (hne : (b, i) ≠ (b', i')) (hv : ((c.access a).line b i).valid = true)
    (hv' : ((c.access a).line b' i').valid = true) :
    ((c.access a).line b i).recency ≠ ((c.access a).line b' i').recency := by
  by_cases hw : (b, i) = (c.accessBank a, setIndex a)
  · cases hw
    rw [Cache.line_access_other hne.symm] at hv' ⊢
    simpa using (h.recency_lt hv').ne'
  · rw [Cache.line_access_other hw] at hv ⊢
    by_cases hw' : (b', i') = (c.accessBank a, setIndex a)
    · cases hw'
      simpa using (h.recency_lt hv).ne
    · rw [Cache.line_access_other hw'] at hv' ⊢
      exact h.stampsDistinct b b' i i' hne hv hv'

/-- The bank that an access does not write keeps its line, which does not hold the tag. -/
theorem CacheOrdered.access_tag_ne (h : CacheOrdered c) (hne : b ≠ c.accessBank a)
    (hvalid : ((c.access a).line b (setIndex a)).valid = true) :
    ((c.access a).line b (setIndex a)).tag ≠ ((c.access a).line (c.accessBank a) (setIndex a)).tag := by
  rw [Cache.line_access_otherBank _ hne] at hvalid ⊢
  simpa using h.tag_ne_of_ne_accessBank hne hvalid

theorem CacheOrdered.access_tagsDistinct (h : CacheOrdered c) (a : Nat) (i : Fin 16)
    (hv0 : ((c.access a).line .bank0 i).valid = true) (hv1 : ((c.access a).line .bank1 i).valid = true) :
    ((c.access a).line .bank0 i).tag ≠ ((c.access a).line .bank1 i).tag := by
  by_cases hi : i = setIndex a
  · subst hi
    cases hbank : c.accessBank a with
    | bank0 => exact hbank ▸ (h.access_tag_ne (by simp [hbank]) hv1).symm
    | bank1 => exact hbank ▸ h.access_tag_ne (by simp [hbank]) hv0
  · rw [Cache.line_access_otherSet _ hi] at hv0 hv1 ⊢
    rw [Cache.line_access_otherSet _ hi]
    exact h.tagsDistinct i hv0 hv1

theorem CacheOrdered.access (h : CacheOrdered c) (a : Nat) : CacheOrdered (c.access a) where
  stamped := h.access_stamped a
  stampsDistinct := h.access_stampsDistinct a
  tagsDistinct := h.access_tagsDistinct a

/-! ### The newest line of a set is no victim (R64 (iii), (iv)) -/

/-- Bank `b` holds the address's tag in its set, stamped later than the set's other line. -/
structure Cache.Newest (c : Cache) (b : Bank) (a : Nat) : Prop where
  valid : (c.line b (setIndex a)).valid = true
  tag : (c.line b (setIndex a)).tag = tagOf a
  later : ∀ b', b' ≠ b → (c.line b' (setIndex a)).valid = true →
    (c.line b' (setIndex a)).recency < (c.line b (setIndex a)).recency

/-- An access leaves its address's line the newest of the set. -/
theorem CacheOrdered.newest_access (h : CacheOrdered c) (a : Nat) :
    (c.access a).Newest (c.accessBank a) a where
  valid := by simp
  tag := by simp
  later b' hne hvalid := by
    rw [Cache.line_access_otherBank _ hne] at hvalid ⊢
    simpa using h.recency_lt hvalid

/-- A newest line is never evicted: the set's other bank is invalid or older. -/
theorem Cache.Newest.victim_ne (h : c.Newest b a) : c.victim (setIndex a) ≠ b := by
  obtain ⟨hvalid, -, hlater⟩ := h
  unfold Cache.victim
  cases b with
  | bank0 =>
    have hold := hlater .bank1 nofun
    split_ifs with h0 h1 h2
    · simp [hvalid] at h0
    · nofun
    · nofun
    · exact absurd (hold (by simpa using h1)) h2
  | bank1 =>
    have hold := hlater .bank0 nofun
    split_ifs with h0 h1 h2
    · nofun
    · simp [hvalid] at h1
    · exact absurd (hold (by simpa using h0)) h2.asymm
    · nofun

/-- An access to another tag of the set does not write a newest line. -/
theorem Cache.Newest.accessBank_ne (h : c.Newest b a) (hset : setIndex a = setIndex a')
    (htag : tagOf a ≠ tagOf a') : c.accessBank a' ≠ b := by
  cases hhit : c.hitBank a' with
  | none =>
    rw [Cache.accessBank_of_miss hhit, ← hset]
    exact h.victim_ne
  | some b' =>
    rw [Cache.accessBank_of_hit hhit]
    rintro rfl
    obtain ⟨-, htag'⟩ := Cache.hitBank_some hhit
    rw [← hset, h.tag] at htag'
    exact htag htag'

theorem Cache.Newest.hits (h : c.Newest b a) : (c.hitBank a).isSome = true :=
  Cache.hitBank_isSome_iff.2 ⟨b, h.valid, h.tag⟩

/-- A newest line outlives any one access: one to its own tag restamps it, another goes elsewhere. -/
theorem Cache.Newest.hits_after_access (h : c.Newest b a) (o : Nat) :
    ((c.access o).hitBank a).isSome = true := by
  refine Cache.hitBank_isSome_iff.2 ⟨b, ?_⟩
  by_cases hw : (b, setIndex a) = (c.accessBank o, setIndex o)
  · obtain ⟨hbank, hset⟩ := Prod.ext_iff.1 hw
    have htag : tagOf a = tagOf o := by
      by_contra hne
      exact h.accessBank_ne hset hne hbank.symm
    rw [show b = c.accessBank o from hbank, show setIndex a = setIndex o from hset, Cache.line_access_same]
    exact ⟨rfl, htag.symm⟩
  · rw [Cache.line_access_other hw]
    exact ⟨h.valid, h.tag⟩

/-- After accesses to two tags of one set, one in each bank, a third tag of the set misses. -/
theorem CacheOrdered.miss_after_two (h : CacheOrdered c) {x y z : Nat} (hxy : setIndex x = setIndex y)
    (hyz : setIndex y = setIndex z) (tyz : tagOf y ≠ tagOf z) (txy : tagOf x ≠ tagOf y)
    (txz : tagOf x ≠ tagOf z) : ((c.access y).access z).hitBank x = none := by
  rw [Cache.hitBank_eq_none_iff, hxy]
  intro b _
  have hbanks := (h.newest_access y).accessBank_ne hyz tyz
  by_cases hb : b = (c.access y).accessBank z
  · rw [hb, hyz, Cache.line_access_same]
    exact txz.symm
  · rw [Cache.line_access_otherBank _ hb, Bank.eq_of_ne_of_ne hb hbanks.symm, Cache.line_access_same]
    exact txy.symm

/-! ### An access as the state sees it (R60, R63) -/

variable {s : State}

/-- An access changes the cache and the tallies of hits and misses, nothing else. -/
theorem State.cacheAccess_frame (s : State) (a : Nat) : s.cacheAccess a =
    { s with cache := (s.cacheAccess a).cache
             tally := { s.tally with cacheHits := (s.cacheAccess a).tally.cacheHits
                                     cacheMisses := (s.cacheAccess a).tally.cacheMisses } } := by
  unfold State.cacheAccess
  simp only [Tallies.countCache_eq]

theorem State.cacheAccess_tally_of_hit (h : s.cache.hitBank a = some b) :
    (s.cacheAccess a).tally = { s.tally with cacheHits := s.tally.cacheHits + 1 } := by
  rw [State.cacheAccess_tally, h, Option.isSome_some, Tallies.countCache_eq]
  rfl

theorem State.cacheAccess_tally_of_miss (h : s.cache.hitBank a = none) :
    (s.cacheAccess a).tally = { s.tally with cacheMisses := s.tally.cacheMisses + 1 } := by
  rw [State.cacheAccess_tally, h, Option.isSome_none, Tallies.countCache_eq]
  rfl

end Sys2Proof.Machine
end

section
/-!
PROOFS. Canonical memory (spec/20_memory.md R50, R52): what bytes and words read as after a store, and that what can
be read determines the list.
-/

namespace Sys2Proof.Machine

variable {s : State} {a k lo : Nat} {bs : List Byte}

/-! ### Bytes after a store -/

theorem MemoryCanonical.writeBytes (hm : MemoryCanonical s) (h : a + bs.length ≤ memSize) :
    MemoryCanonical (s.writeBytes a bs) :=
  Memory.writeBytes_wf bs hm h

theorem State.readByte_writeBytes_inside (hm : MemoryCanonical s) (h : a + bs.length ≤ memSize)
    (hk : k < bs.length) : (s.writeBytes a bs).readByte (a + k) = bs[k] :=
  Memory.read_writeBytes_inside bs hm h hk

theorem State.readByte_writeBytes_outside {q : Nat} (h : q < a ∨ a + bs.length ≤ q) :
    (s.writeBytes a bs).readByte q = s.readByte q :=
  Memory.read_writeBytes_outside s.mem a bs h

theorem memoryKeptOutside_writeBytes (s : State) (a : Nat) (bs : List Byte) :
    MemoryKeptOutside a bs.length s (s.writeBytes a bs) :=
  fun _ => State.readByte_writeBytes_outside

/-! ### Words (R52) -/

/-- The four bytes of a word, put together, are the word. -/
theorem wordOfBytes_extract (w : Word) :
    wordOfBytes (w.extractLsb' 24 8) (w.extractLsb' 16 8) (w.extractLsb' 8 8) (w.extractLsb' 0 8) = w := by
  unfold wordOfBytes
  rw [BitVec.extractLsb'_append_extractLsb'_eq_extractLsb' (show 24 = 16 + 8 from rfl),
    BitVec.extractLsb'_append_extractLsb'_eq_extractLsb' (show 16 = 8 + 8 from rfl),
    BitVec.extractLsb'_append_extractLsb'_eq_extractLsb' (show 8 = 0 + 8 from rfl)]
  exact BitVec.extractLsb'_eq_self

/-- The last two bytes of a word are its low half, whatever stands before them. -/
theorem wordOfBytes_low_half (b0 b1 : Byte) (w : Word) :
    wordOfBytes b0 b1 (w.extractLsb' 8 8) (w.extractLsb' 0 8) = b0 ++ b1 ++ w.extractLsb' 0 16 := by
  unfold wordOfBytes
  rw [BitVec.append_assoc, BitVec.extractLsb'_append_extractLsb'_eq_extractLsb' (show 8 = 0 + 8 from rfl)]
  rfl

/-- A stored word puts its bytes most significant first. -/
theorem State.readByte_writeBytes_wordBytes (hm : MemoryCanonical s) (h : a + 4 ≤ memSize) (w : Word) :
    (s.writeBytes a (wordBytes w)).readByte a = w.extractLsb' 24 8 ∧
    (s.writeBytes a (wordBytes w)).readByte (a + 1) = w.extractLsb' 16 8 ∧
    (s.writeBytes a (wordBytes w)).readByte (a + 2) = w.extractLsb' 8 8 ∧
    (s.writeBytes a (wordBytes w)).readByte (a + 3) = w.extractLsb' 0 8 := by
  have hread : ∀ k (hk : k < 4), (s.writeBytes a (wordBytes w)).readByte (a + k) = (wordBytes w)[k] :=
    fun _ hk => State.readByte_writeBytes_inside hm h hk
  exact ⟨hread 0 (by decide), hread 1 (by decide), hread 2 (by decide), hread 3 (by decide)⟩

/-- A stored word reads back. -/
theorem State.readWord_writeBytes_wordBytes (hm : MemoryCanonical s) (h : a + 4 ≤ memSize) (w : Word) :
    (s.writeBytes a (wordBytes w)).readWord a = w := by
  obtain ⟨h0, h1, h2, h3⟩ := State.readByte_writeBytes_wordBytes hm h w
  rw [State.readWord, h0, h1, h2, h3, wordOfBytes_extract]

/-- A byte stored at a word's second address is the word's second byte. -/
theorem State.readWord_writeBytes_second (hm : MemoryCanonical s) (h : a + 1 < memSize) (b : Byte) :
    (s.writeBytes (a + 1) [b]).readWord a =
      wordOfBytes (s.readByte a) b (s.readByte (a + 2)) (s.readByte (a + 3)) := by
  have hkept := memoryKeptOutside_writeBytes s (a + 1) [b]
  have hsecond : (s.writeBytes (a + 1) [b]).readByte (a + 1) = b :=
    State.readByte_writeBytes_inside (k := 0) (bs := [b]) hm h Nat.one_pos
  rw [State.readWord, hsecond, hkept a (.inl (by omega)), hkept (a + 2) (.inr (Nat.le_refl _)),
    hkept (a + 3) (.inr (by simp))]

/-! ### Canonical lists -/

theorem Memory.wfFrom_cons {b : Byte} {rest : Memory} :
    Memory.wfFrom lo ((a, b) :: rest) = true ↔
      lo ≤ a ∧ a < memSize ∧ b ≠ unlistedByte ∧ Memory.wfFrom (a + 1) rest = true := by
  simp [Memory.wfFrom, and_assoc]

theorem Memory.read_cons_same (a : Nat) (b : Byte) (rest : Memory) : Memory.read ((a, b) :: rest) a = b :=
  if_pos rfl

theorem Memory.read_cons_other {q : Nat} (b : Byte) (rest : Memory) (h : q ≠ a) :
    Memory.read ((a, b) :: rest) q = rest.read q :=
  if_neg h

/-- A memory that reads like a canonical one starts no later, as its first cell would read 0. -/
theorem Memory.start_le_of_read_eq {m : Memory} {b : Byte} {rest : Memory} (hm : Memory.wfFrom lo m = true)
    (hb : b ≠ unlistedByte) (heq : m.read a = Memory.read ((a, b) :: rest) a) : lo ≤ a := by
  by_contra hlt
  rw [Memory.read_below hm (by omega), Memory.read_cons_same] at heq
  exact hb heq.symm

/-- Two canonical memories that read alike are equal, from any lower bounds on: their first cells agree, and so do
their rests, which read alike above the first address and as unlisted up to it. -/
theorem Memory.eq_of_read_eq {m m' : Memory} {lo lo' : Nat} (hm : Memory.wfFrom lo m = true)
    (hm' : Memory.wfFrom lo' m' = true) (heq : ∀ q, m.read q = m'.read q) : m = m' := by
  induction m generalizing m' lo lo' with
  | nil =>
    cases m' with
    | nil => rfl
    | cons cell rest' =>
      obtain ⟨a', b'⟩ := cell
      obtain ⟨-, -, hb', -⟩ := Memory.wfFrom_cons.1 hm'
      exact absurd ((heq a').trans (Memory.read_cons_same ..)).symm hb'
  | cons cell rest ih =>
    obtain ⟨a, b⟩ := cell
    obtain ⟨-, ha, hb, hrest⟩ := Memory.wfFrom_cons.1 hm
    cases m' with
    | nil => exact absurd ((Memory.read_cons_same ..).symm.trans (heq a)) hb
    | cons cell' rest' =>
      obtain ⟨a', b'⟩ := cell'
      obtain ⟨-, ha', hb', hrest'⟩ := Memory.wfFrom_cons.1 hm'
      have hstart : Memory.wfFrom a ((a, b) :: rest) = true := Memory.wfFrom_cons.2 ⟨le_rfl, ha, hb, hrest⟩
      have hstart' : Memory.wfFrom a' ((a', b') :: rest') = true :=
        Memory.wfFrom_cons.2 ⟨le_rfl, ha', hb', hrest'⟩
      obtain rfl : a = a' := le_antisymm (Memory.start_le_of_read_eq hstart hb' (heq a'))
        (Memory.start_le_of_read_eq hstart' hb (heq a).symm)
      have hbyte : b = b' := by simpa only [Memory.read_cons_same] using heq a
      have hread : ∀ q, Memory.read rest q = Memory.read rest' q := by
        intro q
        by_cases hq : q < a + 1
        · rw [Memory.read_below hrest hq, Memory.read_below hrest' hq]
        · simpa only [Memory.read_cons_other _ _ (show q ≠ a by omega)] using heq q
      rw [hbyte, ih hrest hrest' hread]

end Sys2Proof.Machine
end

section
/-!
PROOFS. What a completed handler does to memory and to the cache (spec/20_memory.md R51, R62).
-/

namespace Sys2Proof.Machine

variable {s u : State} {i : Instr}

/-- The address at which an instruction, run from `s`, accesses the cache: L, C and ST have one (R62). -/
def State.cacheAddress (s : State) : Instr → Option Nat
  | .l _ x2 b2 d2 => some (rxEa x2 b2 d2)
  | .c _ x2 b2 d2 => some (rxEa x2 b2 d2)
  | .st r1 x2 b2 d2 => some (stAccess s r1 x2 b2 d2).cache
  | .lr .. | .cr .. | .ar .. | .sr .. | .la .. | .bct .. | .bc .. | .halt _ => none

/-- A completed handler accesses the cache once at its address, if it has one, else not at all. -/
theorem Ran.cache_eq (h : Ran s i u) : u.cache = (s.cacheAddress i).elim s.cache s.cache.access := by
  cases h <;> rfl

theorem Ran.cacheOrdered (h : Ran s i u) (hc : CacheOrdered s.cache) : CacheOrdered u.cache := by
  rw [h.cache_eq]
  cases s.cacheAddress i with
  | none => exact hc
  | some a => exact hc.access a

/-- A completed handler leaves memory, or is an ST that stores in range. -/
theorem Ran.mem_cases (h : Ran s i u) :
    u.mem = s.mem ∨ ∃ (r1 x2 b2 : Nibble) (d2 : Disp) (a : Nat) (bs : List Byte),
      i = .st r1 x2 b2 d2 ∧ a + bs.length ≤ memSize ∧ u.mem = s.mem.writeBytes a bs := by
  cases h
  case st r1 x2 b2 d2 hrange => exact .inr ⟨r1, x2, b2, d2, _, _, rfl, hrange, rfl⟩
  all_goals exact .inl rfl

end Sys2Proof.Machine
end

section
/-!
PROOFS. The statements on memory and the cache (spec/20_memory.md).
-/

namespace Sys2Proof.Machine

/-- Settles O53: a cycle accesses the cache at most once, and every access keeps it ordered. -/
theorem stepKeepsCacheOrdered : Obligations.StepKeepsCacheOrdered := by
  unfold Obligations.StepKeepsCacheOrdered
  intro s t hc hstep
  obtain ⟨-, rfl⟩ | ⟨f, -, rfl⟩ | ⟨i, u, -, -, hran, rfl⟩ | ⟨d, -, -, -, rfl⟩ := cycle_cases hstep
  · exact hc
  · exact hc
  · rw [u.endCycle_cache]
    exact hran.cacheOrdered hc
  · rw [State.endCycle_cache]
    exact hc

/-- Settles O37: outside ST every case of a cycle leaves memory. -/
theorem onlyStoreChangesMemory : Obligations.OnlyStoreChangesMemory := by
  unfold Obligations.OnlyStoreChangesMemory
  intro om s t a hcycle hne
  obtain ⟨-, rfl⟩ | ⟨f, -, rfl⟩ | ⟨i, u, -, hdec, hran, rfl⟩ | ⟨d, -, -, -, rfl⟩ := cycle_cases hcycle
  · exact absurd rfl hne
  · exact absurd rfl hne
  · rw [u.readByte_endCycle] at hne
    obtain hmem | ⟨r1, x2, b2, d2, _, _, rfl, -, -⟩ := hran.mem_cases
    · exact absurd (State.readByte_congr s hmem a) hne
    · exact ⟨r1, x2, b2, d2, hdec⟩
  · exact absurd (State.readByte_endCycle _ a) hne

/-- Settles O40: the handler's access is the cycle's only one; an unassigned opcode makes none. -/
theorem oneCacheAccessPerDataAccess : Obligations.OneCacheAccessPerDataAccess := by
  unfold Obligations.OneCacheAccessPerDataAccess
  intro om s t d hr hdec hcycle hfault
  obtain ⟨hterm, -⟩ | ⟨f, -, rfl⟩ | ⟨i, u, -, hdec', hran, rfl⟩ | ⟨d', -, hdec', hun, rfl⟩ := cycle_cases hcycle
  · exact absurd hr hterm
  · exact absurd hfault (by simp [State.faulted])
  · obtain rfl := Except.ok.inj (hdec.symm.trans hdec')
    rw [u.endCycle_cache]
    have hcache := hran.cache_eq
    cases i <;> exact hcache
  · obtain rfl := Except.ok.inj (hdec.symm.trans hdec')
    cases d with
    | instr i => exact absurd rfl (hun i)
    | unassignedRR op r1 r2 => exact State.endCycle_cache _
    | unassignedRX op r1 x2 b2 d2 => exact State.endCycle_cache _

/-- Settles O45: the stored bytes read back one by one, and the word is made of them. -/
theorem bigEndianWords : Obligations.BigEndianWords := by
  unfold Obligations.BigEndianWords
  intro s a w b hm ha
  have hrange : a + 4 ≤ memSize := by unfold memSize; omega
  obtain ⟨h0, h1, h2, h3⟩ := State.readByte_writeBytes_wordBytes hm hrange w
  have hbyte : ((s.writeBytes a (wordBytes w)).writeBytes (a + 1) [b]).readWord a =
      w.extractLsb' 24 8 ++ b ++ w.extractLsb' 0 16 := by
    rw [State.readWord_writeBytes_second (hm.writeBytes hrange) (by omega), h0, h2, h3, wordOfBytes_low_half]
  exact ⟨rfl, State.readWord_writeBytes_wordBytes hm hrange w, h0, h1, h2, h3,
    memoryKeptOutside_writeBytes s a (wordBytes w), hbyte, dispOf_toNat⟩

/-- Settles O46: both lists are canonical from address 0 on. -/
theorem canonicalMemoriesThatReadAlikeAreEqual : Obligations.CanonicalMemoriesThatReadAlikeAreEqual := by
  unfold Obligations.CanonicalMemoriesThatReadAlikeAreEqual
  intro m m' hm hm' heq
  exact Memory.eq_of_read_eq hm hm' heq

/-- Settles O47: on a hit `accessBank` is the bank that holds the tag, on a miss it is the victim, and its line is
the one written. -/
theorem cacheAccessProcedure : Obligations.CacheAccessProcedure := by
  unfold Obligations.CacheAccessProcedure
  intro s a i hc hi
  obtain rfl := eq_setIndex_iff.2 hi
  simp only [← tagOf_eq_div]
  refine ⟨s.cache.access_acc a, s.cacheAccess_frame a, ?hit, ?miss⟩
  case hit =>
    intro b hvalid htag
    have hhit := hc.hitBank_eq_some hvalid htag
    rw [State.cacheAccess_tally_of_hit hhit, State.cacheAccess_cache, ← Cache.accessBank_of_hit hhit]
    exact ⟨rfl, rfl, s.cache.line_access_same a, fun _ _ => Cache.line_access_other⟩
  case miss =>
    intro hnone
    have hmiss := Cache.hitBank_eq_none_iff.2 hnone
    rw [State.cacheAccess_tally_of_miss hmiss, State.cacheAccess_cache]
    refine ⟨rfl, rfl, s.cache.accessBank a, ?_, ?_, ?_, s.cache.line_access_same a,
      fun _ _ => Cache.line_access_other⟩
    all_goals rw [Cache.accessBank_of_miss hmiss, Cache.victim]
    · intro h0
      rw [if_pos h0]
    · intro h0 h1
      simp [h0, h1]
    · intro h0 h1
      simp [h0, h1]

/-- Settles O48: the split in numbers, and the bounds on addresses in range. -/
theorem addressSplitAndBounds : Obligations.AddressSplitAndBounds := by
  unfold Obligations.AddressSplitAndBounds
  refine ⟨fun a => ⟨setIndex_val a, tagOf_eq_div a, fun k hk => ?block⟩, fun r1 x2 b2 d2 s => ⟨?load, ?store⟩⟩
  case block =>
    rw [setIndex_eq_iff, tagOf_eq_iff]
    omega
  case load =>
    intro h
    have hle : rxEa x2 b2 d2 ≤ 8187 := by omega
    exact ⟨hle, tagOf_le hle⟩
  case store =>
    intro h
    exact ⟨stAccess_cache_le h, tagOf_le (stAccess_cache_le h)⟩

/-- Settles O49: an access leaves the newest line of its set, which one more access does not evict. -/
theorem repeatedAccessHits : Obligations.RepeatedAccessHits := by
  unfold Obligations.RepeatedAccessHits
  intro c a a' o hc hset htag
  rw [← setIndex_eq_iff] at hset
  rw [← tagOf_eq_iff] at htag
  have hnewest := hc.newest_access a
  rw [← Cache.hitBank_congr _ hset htag, ← Cache.hitBank_congr _ hset htag]
  exact ⟨hnewest.hits, hnewest.hits_after_access o⟩

/-- Settles O50: the second and the third address end up in the two banks of the set, so the first is gone. -/
theorem thirdTagEvictsLeastRecent : Obligations.ThirdTagEvictsLeastRecent := by
  unfold Obligations.ThirdTagEvictsLeastRecent
  intro c x y z hc hxy hyz txy tyz txz
  rw [← setIndex_eq_iff] at hxy hyz
  rw [Ne, ← tagOf_eq_iff] at txy tyz txz
  have hcx := hc.access x
  exact ⟨hcx.miss_after_two hxy hyz tyz txy txz, (hcx.newest_access y).hits_after_access z,
    ((hcx.access y).newest_access z).hits⟩

/-- Settles O51: the one write of a cycle is an ST's, in range. -/
theorem stepKeepsMemoryCanonical : Obligations.StepKeepsMemoryCanonical := by
  unfold Obligations.StepKeepsMemoryCanonical
  intro s t hm hstep
  obtain ⟨-, rfl⟩ | ⟨f, -, rfl⟩ | ⟨i, u, -, -, hran, rfl⟩ | ⟨d, -, -, -, rfl⟩ := cycle_cases hstep
  · exact hm
  · exact hm
  · unfold MemoryCanonical
    rw [u.endCycle_mem]
    obtain hmem | ⟨_, _, _, _, a, bs, -, hrange, hmem⟩ := hran.mem_cases
    · rwa [hmem]
    · rw [hmem]
      exact Memory.writeBytes_wf bs hm hrange
  · unfold MemoryCanonical
    rwa [State.endCycle_mem]

end Sys2Proof.Machine
end

section
/-!
PROOFS. The shape of encodings (spec/30_encoding.md R89, R90, R92, R94): a record is the halt form, or the RR or
the RX record of its opcode byte and fields; decoding by class inverts encoding by class.
-/

namespace Sys2Proof

variable {om : OpMap} {op : Byte} {d : Decoded}

/-! ### The opcode map (R11, R92) -/

/-- A byte is of one of three classes, by its high nibble (R94). -/
theorem byte_class (op : Byte) : op.toNat / 16 = 0 ∨ op.toNat / 16 = 1 ∨ 2 ≤ op.toNat / 16 := by
  omega

theorem Op.mem_rrOps_or_rxOps (m : Op) : m ∈ rrOps ∨ m ∈ rxOps := by
  cases m <;> decide

/-- A well-formed map gives no byte twice (R11 (iii)). -/
theorem OpMap.wf_eq_iff (h : om.wf = true) {m n : Op} : om m = om n ↔ m = n := by
  simp only [OpMap.wf, Bool.and_eq_true, decide_eq_true_eq] at h
  have hmem (k : Op) : k ∈ rrOps ++ rxOps := List.mem_append.2 k.mem_rrOps_or_rxOps
  exact ⟨fun e => List.inj_on_of_nodup_map h.2 (hmem m) (hmem n) e, fun e => by rw [e]⟩

theorem OpMap.unassigned_iff : om.unassigned op = true ↔ ∀ m : Op, op ≠ om m := by
  simp only [OpMap.unassigned, List.all_eq_true, bne_iff_ne, List.mem_append]
  exact ⟨fun h m e => h m m.mem_rrOps_or_rxOps e.symm, fun h m _ e => h m e.symm⟩

/-- No byte of a well-formed map is of the halt class (R11). -/
theorem OpMap.wf_ne_halt (h : om.wf = true) (m : Op) : (om m).toNat / 16 ≠ 0 := by
  obtain hm | hm := m.mem_rrOps_or_rxOps
  · have := OpMap.wf_rr h hm
    omega
  · have := OpMap.wf_rx h hm
    omega

/-- An RR byte that no RR opcode has is unassigned: the RX opcodes have other bytes (R11 (ii)). -/
theorem OpMap.unassigned_of_rr (h : om.wf = true) (hop : op.toNat / 16 = 1)
    (hne : ∀ m ∈ rrOps, op ≠ om m) : om.unassigned op = true := by
  refine OpMap.unassigned_iff.2 fun m e => ?_
  have hrx := OpMap.wf_rx h (m.mem_rrOps_or_rxOps.resolve_left fun hm => hne m hm e)
  rw [← e] at hrx
  omega

/-- An RX byte that no RX opcode has is unassigned: the RR opcodes have other bytes (R11 (i)). -/
theorem OpMap.unassigned_of_rx (h : om.wf = true) (hop : 2 ≤ op.toNat / 16)
    (hne : ∀ m ∈ rxOps, op ≠ om m) : om.unassigned op = true := by
  refine OpMap.unassigned_iff.2 fun m e => ?_
  have hrr := OpMap.wf_rr h (m.mem_rrOps_or_rxOps.resolve_right fun hm => hne m hm e)
  rw [← e] at hrr
  omega

/-! ### The record of a byte (R89) -/

/-- The record of an RR byte: an instruction of the opcode that has the byte, or the unassigned record. -/
theorem recordRR_cases (h : om.wf = true) (hop : op.toNat / 16 = 1) (r1 r2 : Nibble) :
    (∃ m i, op = om m ∧ i.op = some m ∧ recordRR om op r1 r2 = .instr i) ∨
    (om.unassigned op = true ∧ recordRR om op r1 r2 = .unassignedRR op r1 r2) := by
  unfold recordRR
  iterate 4
    split
    · exact .inl ⟨_, _, ‹_›, rfl, rfl⟩
  exact .inr ⟨OpMap.unassigned_of_rr h hop (by simp [rrOps, *]), rfl⟩

/-- The record of an RX byte: an instruction of the opcode that has the byte, or the unassigned record. -/
theorem recordRX_cases (h : om.wf = true) (hop : 2 ≤ op.toNat / 16) (r1 x2 b2 : Nibble) (d2 : Disp) :
    (∃ m i, op = om m ∧ i.op = some m ∧ recordRX om op r1 x2 b2 d2 = .instr i) ∨
    (om.unassigned op = true ∧ recordRX om op r1 x2 b2 d2 = .unassignedRX op r1 x2 b2 d2) := by
  unfold recordRX
  iterate 6
    split
    · exact .inl ⟨_, _, ‹_›, rfl, rfl⟩
  exact .inr ⟨OpMap.unassigned_of_rx h hop (by simp [rxOps, *]), rfl⟩

/-- The record of an RR byte is well formed (R92). -/
theorem recordRR_wf (h : om.wf = true) (hop : op.toNat / 16 = 1) (r1 r2 : Nibble) :
    (recordRR om op r1 r2).wf om = true := by
  obtain ⟨_, _, -, -, e⟩ | ⟨hun, e⟩ := recordRR_cases h hop r1 r2 <;> rw [e]
  · rfl
  · simp [Decoded.wf, hop, hun]

/-- The record of an RX byte is well formed (R92). -/
theorem recordRX_wf (h : om.wf = true) (hop : 2 ≤ op.toNat / 16) (r1 x2 b2 : Nibble) (d2 : Disp) :
    (recordRX om op r1 x2 b2 d2).wf om = true := by
  obtain ⟨_, _, -, -, e⟩ | ⟨hun, e⟩ := recordRX_cases h hop r1 x2 b2 d2 <;> rw [e]
  · rfl
  · simp [Decoded.wf, hop, hun]

/-- The record of an unassigned RR byte (R92). -/
theorem recordRR_of_unassigned (h : om.unassigned op = true) (r1 r2 : Nibble) :
    recordRR om op r1 r2 = .unassignedRR op r1 r2 := by
  simp [recordRR, OpMap.unassigned_iff.1 h]

/-- The record of an unassigned RX byte (R92). -/
theorem recordRX_of_unassigned (h : om.unassigned op = true) (r1 x2 b2 : Nibble) (d2 : Disp) :
    recordRX om op r1 x2 b2 d2 = .unassignedRX op r1 x2 b2 d2 := by
  simp [recordRX, OpMap.unassigned_iff.1 h]

/-- Every instruction is a halt form or the record of its opcode's byte and its fields (R89, R90). -/
theorem instr_eq_record (h : om.wf = true) (i : Instr) :
    (∃ g, i = .halt g) ∨
    (∃ m ∈ rrOps, ∃ r1 r2, .instr i = recordRR om (om m) r1 r2) ∨
    (∃ m ∈ rxOps, ∃ r1 x2 b2 d2, .instr i = recordRX om (om m) r1 x2 b2 d2) := by
  have heq {m n : Op} : om m = om n ↔ m = n := OpMap.wf_eq_iff h
  cases i with
  | halt g => exact .inl ⟨g, rfl⟩
  | lr r1 r2 => exact .inr (.inl ⟨.lr, by decide, r1, r2, by simp [recordRR]⟩)
  | cr r1 r2 => exact .inr (.inl ⟨.cr, by decide, r1, r2, by simp [recordRR, heq]⟩)
  | ar r1 r2 => exact .inr (.inl ⟨.ar, by decide, r1, r2, by simp [recordRR, heq]⟩)
  | sr r1 r2 => exact .inr (.inl ⟨.sr, by decide, r1, r2, by simp [recordRR, heq]⟩)
  | la r1 x2 b2 d2 => exact .inr (.inr ⟨.la, by decide, r1, x2, b2, d2, by simp [recordRX]⟩)
  | bct r1 x2 b2 d2 => exact .inr (.inr ⟨.bct, by decide, r1, x2, b2, d2, by simp [recordRX, heq]⟩)
  | bc m1 x2 b2 d2 => exact .inr (.inr ⟨.bc, by decide, m1, x2, b2, d2, by simp [recordRX, heq]⟩)
  | st r1 x2 b2 d2 => exact .inr (.inr ⟨.st, by decide, r1, x2, b2, d2, by simp [recordRX, heq]⟩)
  | l r1 x2 b2 d2 => exact .inr (.inr ⟨.l, by decide, r1, x2, b2, d2, by simp [recordRX, heq]⟩)
  | c r1 x2 b2 d2 => exact .inr (.inr ⟨.c, by decide, r1, x2, b2, d2, by simp [recordRX, heq]⟩)

/-- Every well-formed record is a halt form or the record of a byte of its class (R89, R92). -/
theorem Decoded.eq_record_of_wf (h : om.wf = true) (hd : d.wf om = true) :
    (∃ g, d = .instr (.halt g)) ∨
    (∃ (op : Byte) (r1 r2 : Nibble), op.toNat / 16 = 1 ∧ d = recordRR om op r1 r2) ∨
    (∃ (op : Byte) (r1 x2 b2 : Nibble) (d2 : Disp), 2 ≤ op.toNat / 16 ∧ d = recordRX om op r1 x2 b2 d2) := by
  cases d with
  | instr i =>
    obtain ⟨g, rfl⟩ | ⟨m, hm, r1, r2, e⟩ | ⟨m, hm, r1, x2, b2, d2, e⟩ := instr_eq_record h i
    · exact .inl ⟨g, rfl⟩
    · exact .inr (.inl ⟨om m, r1, r2, OpMap.wf_rr h hm, e⟩)
    · exact .inr (.inr ⟨om m, r1, x2, b2, d2, OpMap.wf_rx h hm, e⟩)
  | unassignedRR op r1 r2 =>
    simp only [Decoded.wf, Bool.and_eq_true, beq_iff_eq] at hd
    exact .inr (.inl ⟨op, r1, r2, hd.1, (recordRR_of_unassigned hd.2 r1 r2).symm⟩)
  | unassignedRX op r1 x2 b2 d2 =>
    simp only [Decoded.wf, Bool.and_eq_true, decide_eq_true_eq] at hd
    exact .inr (.inr ⟨op, r1, x2, b2, d2, hd.1, (recordRX_of_unassigned hd.2 r1 x2 b2 d2).symm⟩)

/-! ### Encoding by class (R90) -/

/-- The encoding of the record of an RR byte is that byte and the fields. -/
theorem encodeRecord_recordRR (om : OpMap) (op : Byte) (r1 r2 : Nibble) :
    encodeRecord om (recordRR om op r1 r2) = rrBytes op r1 r2 := by
  unfold recordRR
  repeat' split
  all_goals simp only [encodeRecord, encode, *]

/-- The encoding of the record of an RX byte is that byte and the fields. -/
theorem encodeRecord_recordRX (om : OpMap) (op : Byte) (r1 x2 b2 : Nibble) (d2 : Disp) :
    encodeRecord om (recordRX om op r1 x2 b2 d2) = rxBytes op r1 x2 b2 d2 := by
  unfold recordRX
  repeat' split
  all_goals simp only [encodeRecord, encode, *]

/-- The byte of the halt form of its low nibble (R82). -/
theorem haltBytes_fields (hop : op.toNat / 16 = 0) : [byteOf 0#4 (lo4 op)] = [op] := by
  rw [← (hi4_eq_iff op 0#4).2 hop, byteOf_hi4_lo4]

/-- The RR bytes of the fields taken from a byte (R83). -/
theorem rrBytes_fields (op b1 : Byte) : rrBytes op (hi4 b1) (lo4 b1) = [op, b1] := by
  simp [rrBytes]

/-- The RX bytes of the fields taken from three bytes (R84). -/
theorem rxBytes_fields (op b1 b2 b3 : Byte) :
    rxBytes op (hi4 b1) (lo4 b1) (hi4 b2) (dispOf b2 b3) = [op, b1, b2, b3] := by
  have hhigh : (dispOf b2 b3).extractLsb' 8 4 = lo4 b2 := BitVec.extractLsb'_append_eq_left
  have hlow : (dispOf b2 b3).extractLsb' 0 8 = b3 := BitVec.extractLsb'_append_eq_right
  simp [rxBytes, hhigh, hlow]

/-! ### Decoding by class (R94) -/

theorem decode_haltBytes (om : OpMap) (g : Nibble) (rest : List Byte) :
    decode om (byteOf 0#4 g :: rest) = .ok (.instr (.halt g)) := by
  rw [decode_halt om rest ((hi4_eq_iff _ _).1 (hi4_byteOf 0#4 g)), lo4_byteOf]

theorem decode_rrBytes (om : OpMap) (hop : op.toNat / 16 = 1) (r1 r2 : Nibble) (rest : List Byte) :
    decode om (rrBytes op r1 r2 ++ rest) = .ok (recordRR om op r1 r2) := by
  simp [rrBytes, decode_rr om _ _ hop]

theorem decode_rxBytes (om : OpMap) (hop : 2 ≤ op.toNat / 16) (r1 x2 b2 : Nibble) (d2 : Disp)
    (rest : List Byte) :
    decode om (rxBytes op r1 x2 b2 d2 ++ rest) = .ok (recordRX om op r1 x2 b2 d2) := by
  simp [rxBytes, decode_rx om _ _ _ _ hop]

/-- What decoding can answer: the record of the class of the first byte. -/
theorem decode_ok_cases {bytes : List Byte} (h : decode om bytes = .ok d) :
    (∃ op rest, bytes = op :: rest ∧ op.toNat / 16 = 0 ∧ d = .instr (.halt (lo4 op))) ∨
    (∃ op b1 rest, bytes = op :: b1 :: rest ∧ op.toNat / 16 = 1 ∧ d = recordRR om op (hi4 b1) (lo4 b1)) ∨
    (∃ op b1 b2 b3 rest, bytes = op :: b1 :: b2 :: b3 :: rest ∧ 2 ≤ op.toNat / 16 ∧
      d = recordRX om op (hi4 b1) (lo4 b1) (hi4 b2) (dispOf b2 b3)) := by
  cases bytes with
  | nil => simp [decode_nil] at h
  | cons op tail =>
    obtain hop | hop | hop := byte_class op
    · rw [decode_halt om tail hop] at h
      exact .inl ⟨op, tail, rfl, hop, (Except.ok.inj h).symm⟩
    · match tail with
      | [] => simp [decode_rr_short om hop] at h
      | b1 :: rest =>
        rw [decode_rr om b1 rest hop] at h
        exact .inr (.inl ⟨op, b1, rest, rfl, hop, (Except.ok.inj h).symm⟩)
    · match tail with
      | [] | [_] | [_, _] => simp [decode_rx_short om _ hop] at h
      | b1 :: b2 :: b3 :: rest =>
        rw [decode_rx om b1 b2 b3 rest hop] at h
        exact .inr (.inr ⟨op, b1, b2, b3, rest, rfl, hop, (Except.ok.inj h).symm⟩)

/-- Decoding inverts encoding, whatever bytes follow. -/
theorem decode_encodeRecord (h : om.wf = true) (hd : d.wf om = true) (rest : List Byte) :
    decode om (encodeRecord om d ++ rest) = .ok d := by
  obtain ⟨g, rfl⟩ | ⟨op, r1, r2, hop, rfl⟩ | ⟨op, r1, x2, b2, d2, hop, rfl⟩ := Decoded.eq_record_of_wf h hd
  · exact decode_haltBytes om g rest
  · rw [encodeRecord_recordRR, decode_rrBytes om hop]
  · rw [encodeRecord_recordRX, decode_rxBytes om hop]

end Sys2Proof
end

section
/-!
PROOFS. The statements on decoding and encoding (spec/30_encoding.md R83 to R94).
-/

namespace Sys2Proof

/-- Settles O1: a well-formed record is the one its class's decoding gives. -/
theorem decodeInvertsEncode : Obligations.DecodeInvertsEncode := by
  unfold Obligations.DecodeInvertsEncode
  intro om d rest h hd
  exact decode_encodeRecord h hd rest

/-- Settles O2: class by class, the fields taken from the bytes give the bytes back. -/
theorem decodedBytesAreTheEncoding : Obligations.DecodedBytesAreTheEncoding := by
  unfold Obligations.DecodedBytesAreTheEncoding
  intro om bytes d h hdec
  obtain ⟨op, rest, rfl, hop, rfl⟩ | ⟨op, b1, rest, rfl, hop, rfl⟩ | ⟨op, b1, b2, b3, rest, rfl, hop, rfl⟩ :=
    decode_ok_cases hdec
  · exact ⟨rfl, Nat.le_add_left 1 rest.length, (haltBytes_fields hop).symm⟩
  · rw [Decoded.length, (recordRR_fields ..).1, encodeRecord_recordRR, rrBytes_fields]
    exact ⟨recordRR_wf h hop _ _, by simp [Format.length], rfl⟩
  · rw [Decoded.length, (recordRX_fields ..).1, encodeRecord_recordRX, rxBytes_fields]
    exact ⟨recordRX_wf h hop _ _ _ _, by simp [Format.length], rfl⟩

/-- Settles O3: one case for each class of the first byte. -/
theorem decodeFailsOnlyOnMissingByte : Obligations.DecodeFailsOnlyOnMissingByte := by
  unfold Obligations.DecodeFailsOnlyOnMissingByte
  intro om op tail
  refine ⟨decode_nil om, ?_⟩
  obtain hop | hop | hop := byte_class op
  · rw [if_pos hop]
    exact ⟨fun _ => ⟨_, decode_halt om tail hop⟩, fun hlen => absurd hlen (by simp)⟩
  · rw [if_neg (by omega), if_pos hop]
    match tail with
    | [] => exact ⟨fun hlen => absurd hlen (by simp), fun _ => decode_rr_short om hop⟩
    | b1 :: rest => exact ⟨fun _ => ⟨_, decode_rr om b1 rest hop⟩, fun hlen => absurd hlen (by simp)⟩
  · rw [if_neg (by omega), if_neg (by omega)]
    constructor
    · intro hlen
      match tail, hlen with
      | b1 :: b2 :: b3 :: rest, _ => exact ⟨_, decode_rx om b1 b2 b3 rest hop⟩
    · intro hlen
      rw [List.length_cons] at hlen ⊢
      exact decode_rx_short om tail hop (by omega)

/-- Settles O4: effective address and advances are those of every RR record, assigned or not. -/
theorem rrFieldsAndAdvance : Obligations.RrFieldsAndAdvance := by
  unfold Obligations.RrFieldsAndAdvance
  intro om op b1 rest hop
  obtain ⟨hformat, hdisp, hea⟩ := recordRR_fields om op (hi4 b1) (lo4 b1)
  refine ⟨hi4 b1, lo4 b1, _, decode_rr om b1 rest hop, rfl, hi4_toNat b1, lo4_toNat b1, ?ea, ?length, ?ia⟩
  case ea => rw [hea, lo4_toNat]
  case length => rw [Decoded.length, hformat]; rfl
  case ia => simp [Decoded.iaAdvance, hdisp, hformat]

/-- Settles O5: displacement and effective address are those of every RX record, assigned or not. -/
theorem rxFieldsAndEffectiveAddress : Obligations.RxFieldsAndEffectiveAddress := by
  unfold Obligations.RxFieldsAndEffectiveAddress
  intro om op b1 b2 b3 rest hop
  obtain ⟨-, hdisp, hea⟩ := recordRX_fields om op (hi4 b1) (lo4 b1) (hi4 b2) (dispOf b2 b3)
  exact ⟨hi4 b1, lo4 b1, hi4 b2, dispOf b2 b3, _, _, decode_rx om b1 b2 b3 rest hop, rfl,
    hi4_toNat b1, lo4_toNat b1, hi4_toNat b2, dispOf_toNat b2 b3, hdisp, hea, rfl, rxEa_le _ _ _⟩

/-- Settles O6: each clause is one evaluation of the default map or of its decoder. -/
theorem defaultMapAndItsWordsDecode : Obligations.DefaultMapAndItsWordsDecode := by
  unfold Obligations.DefaultMapAndItsWordsDecode
  refine ⟨?wf, ?bytes, ?lr, ?sr, ?la, ?bc, ?st, ?l, ?halt, ?unassigned⟩
  case wf => decide
  all_goals rfl

end Sys2Proof
end

section
/-!
PROOFS. Fetching is decoding of the bytes of memory from the PC on (spec/30_encoding.md R80): a decoder's failures
follow its source of bytes, so what is known of decoding a list holds of fetching.
-/

namespace Sys2Proof

/-- Decoding reads bytes 0 to 3 alone, and passes on the failure of its source: two sources that give the same
bytes up to the name of a failure decode alike up to that name. -/
theorem decodeFrom_mapError {ε δ : Type} (om : OpMap) (relabel : ε → δ) {f : Nat → Except ε Byte}
    {g : Nat → Except δ Byte} (h : ∀ k < 4, g k = (f k).mapError relabel) :
    decodeFrom om g = (decodeFrom om f).mapError relabel := by
  simp only [decodeFrom, h 0 (by decide), h 1 (by decide), h 2 (by decide), h 3 (by decide), bind, Except.bind]
  cases f 0 with
  | error e => rfl
  | ok op =>
    simp only [Except.mapError]
    by_cases h0 : hi4 op = 0#4
    · rw [if_pos h0, if_pos h0]; rfl
    by_cases h1 : hi4 op = 1#4
    · rw [if_neg h0, if_pos h1, if_neg h0, if_pos h1]
      cases f 1 <;> rfl
    · rw [if_neg h0, if_neg h1, if_neg h0, if_neg h1]
      cases f 1 <;> cases f 2 <;> cases f 3 <;> rfl

end Sys2Proof

namespace Sys2Proof.Machine

variable {om : OpMap} {s : State} {d : Decoded}

/-- The bytes of memory from the PC on, at most four and none above offset 4095. -/
def State.bytesAtPc (s : State) : List Byte :=
  (List.range (min 4 (4096 - s.pc))).map fun k => s.readByte (s.pc + k)

/-- The model fault of a byte missing at the PC (R200). -/
def State.fetchFault (s : State) : DecodeError → Fault
  | .missingByte k => .fetchOutOfRange (s.pc + k)

theorem State.bytesAtPc_length (s : State) : s.bytesAtPc.length = min 4 (4096 - s.pc) := by
  simp [State.bytesAtPc]

theorem State.bytesAtPc_getElem (s : State) {k : Nat} (hk : k < s.bytesAtPc.length) :
    s.bytesAtPc[k] = s.readByte (s.pc + k) := by
  simp [State.bytesAtPc]

/-- A byte of the list is the byte of memory at its offset. -/
theorem State.readByte_of_bytesAtPc (s : State) {k : Nat} {b : Byte} (h : s.bytesAtPc[k]? = some b) :
    s.readByte (s.pc + k) = b := by
  obtain ⟨hk, e⟩ := List.getElem?_eq_some_iff.1 h
  rw [← e, s.bytesAtPc_getElem]

/-- Fetching gives what the list decoder gives on the bytes at the PC (R80), its failure named as the model fault. -/
theorem State.fetchDecode_eq_decode (s : State) (om : OpMap) :
    s.fetchDecode om = (decode om s.bytesAtPc).mapError s.fetchFault := by
  refine decodeFrom_mapError om s.fetchFault fun k hk => ?_
  by_cases hin : s.pc + k < 4096
  · have hlt : k < s.bytesAtPc.length := by rw [s.bytesAtPc_length]; omega
    simp only [s.fetch8_ok hin, List.getElem?_eq_getElem hlt, s.bytesAtPc_getElem hlt, Except.mapError]
  · have hge : s.bytesAtPc.length ≤ k := by rw [s.bytesAtPc_length]; omega
    simp only [s.fetch8_error (Nat.le_of_not_lt hin), List.getElem?_eq_none hge, Except.mapError, State.fetchFault]

/-- Fetching succeeds exactly where the bytes at the PC decode. -/
theorem State.fetchDecode_ok_iff : s.fetchDecode om = .ok d ↔ decode om s.bytesAtPc = .ok d := by
  rw [s.fetchDecode_eq_decode]
  cases decode om s.bytesAtPc <;> simp [Except.mapError]

/-- Bytes that lie in memory from the PC on are the first of the bytes at the PC. -/
theorem State.take_bytesAtPc {bytes : List Byte} (hlen : bytes.length ≤ 4)
    (h : ∀ (k : Nat) (hk : k < bytes.length), s.pc + k < 4096 ∧ s.readByte (s.pc + k) = bytes[k]) :
    s.bytesAtPc.take bytes.length = bytes := by
  have hle : bytes.length ≤ s.bytesAtPc.length := by
    rw [s.bytesAtPc_length]
    obtain hzero | hpos := Nat.eq_zero_or_pos bytes.length
    · omega
    · have hlast := (h (bytes.length - 1) (by omega)).1
      omega
  refine List.ext_getElem (List.length_take_of_le hle) fun k _ hk => ?_
  rw [List.getElem_take, s.bytesAtPc_getElem]
  exact (h k hk).2

/-- What fetching can answer: the record of the class of the byte at the PC. -/
theorem State.fetchDecode_ok_cases (h : s.fetchDecode om = .ok d) :
    ((s.readByte s.pc).toNat / 16 = 0 ∧ d = .instr (.halt (lo4 (s.readByte s.pc)))) ∨
    ((s.readByte s.pc).toNat / 16 = 1 ∧
      d = recordRR om (s.readByte s.pc) (hi4 (s.readByte (s.pc + 1))) (lo4 (s.readByte (s.pc + 1)))) ∨
    (2 ≤ (s.readByte s.pc).toNat / 16 ∧
      d = recordRX om (s.readByte s.pc) (hi4 (s.readByte (s.pc + 1))) (lo4 (s.readByte (s.pc + 1)))
        (hi4 (s.readByte (s.pc + 2))) (dispOf (s.readByte (s.pc + 2)) (s.readByte (s.pc + 3)))) := by
  obtain ⟨op, rest, e, hop, rfl⟩ | ⟨op, b1, rest, e, hop, rfl⟩ | ⟨op, b1, b2, b3, rest, e, hop, rfl⟩ :=
    decode_ok_cases (State.fetchDecode_ok_iff.1 h)
  all_goals
    have h0 : s.readByte s.pc = op := s.readByte_of_bytesAtPc (k := 0) (by rw [e]; rfl)
    rw [h0]
  · exact .inl ⟨hop, rfl⟩
  · have h1 : s.readByte (s.pc + 1) = b1 := s.readByte_of_bytesAtPc (by rw [e]; rfl)
    rw [h1]
    exact .inr (.inl ⟨hop, rfl⟩)
  · have h1 : s.readByte (s.pc + 1) = b1 := s.readByte_of_bytesAtPc (by rw [e]; rfl)
    have h2 : s.readByte (s.pc + 2) = b2 := s.readByte_of_bytesAtPc (by rw [e]; rfl)
    have h3 : s.readByte (s.pc + 3) = b3 := s.readByte_of_bytesAtPc (by rw [e]; rfl)
    rw [h1, h2, h3]
    exact .inr (.inr ⟨hop, rfl⟩)

end Sys2Proof.Machine
end

section
/-!
PROOFS. The statements on fetching and dispatch (spec/30_encoding.md R80, R89, R90).
-/

namespace Sys2Proof.Machine

variable {om : OpMap} {s : State}

/-- An encoding has at most four bytes (R86). -/
theorem encode_length_le (om : OpMap) (i : Instr) : (encode om i).length ≤ 4 := by
  cases i <;> simp [encode, rrBytes, rxBytes]

/-- A fetched byte of the RR or RX class gives an instruction of the opcode that has the byte, or a record that
is none where the byte is unassigned (R89, R92). -/
theorem State.fetchDecode_dispatch (h : om.wf = true) (hop : (s.readByte s.pc).toNat / 16 ≠ 0)
    (hmem : s.pc + (if (s.readByte s.pc).toNat / 16 = 1 then 2 else 4) ≤ memSize) :
    (∃ m i, s.readByte s.pc = om m ∧ i.op = some m ∧ s.fetchDecode om = .ok (.instr i)) ∨
    (om.unassigned (s.readByte s.pc) = true ∧ ∃ d, (∀ i, d ≠ .instr i) ∧ s.fetchDecode om = .ok d) := by
  obtain hzero | hrr | hrx := byte_class (s.readByte s.pc)
  · exact absurd hzero hop
  · rw [if_pos hrr] at hmem
    rw [s.fetchDecode_rr om hmem hrr]
    obtain ⟨m, i, hm, hi, e⟩ | ⟨hun, e⟩ := recordRR_cases h hrr (hi4 (s.readByte (s.pc + 1)))
      (lo4 (s.readByte (s.pc + 1)))
    · exact .inl ⟨m, i, hm, hi, by rw [e]⟩
    · exact .inr ⟨hun, .unassignedRR .., fun _ => nofun, by rw [e]⟩
  · rw [if_neg (by omega)] at hmem
    rw [s.fetchDecode_rx om hmem hrx]
    obtain ⟨m, i, hm, hi, e⟩ | ⟨hun, e⟩ := recordRX_cases h hrx (hi4 (s.readByte (s.pc + 1)))
      (lo4 (s.readByte (s.pc + 1))) (hi4 (s.readByte (s.pc + 2)))
      (dispOf (s.readByte (s.pc + 2)) (s.readByte (s.pc + 3)))
    · exact .inl ⟨m, i, hm, hi, by rw [e]⟩
    · exact .inr ⟨hun, .unassignedRX .., fun _ => nofun, by rw [e]⟩

/-- Settles O7: `fetchDecode_eq_decode`, answer by answer. -/
theorem fetchDecodesMemoryAtPc : Obligations.FetchDecodesMemoryAtPc := by
  unfold Obligations.FetchDecodesMemoryAtPc
  intro om s
  have hfetch := s.fetchDecode_eq_decode om
  unfold State.bytesAtPc at hfetch
  rw [hfetch]
  cases decode om _ with
  | ok d => rfl
  | error e => cases e; rfl

/-- Settles O9: the bytes at the PC begin with the encoding, which decodes to the instruction whatever follows. -/
theorem cycleRunsEncodedInstruction : Obligations.CycleRunsEncodedInstruction := by
  unfold Obligations.CycleRunsEncodedInstruction
  intro om i s h hr hmem
  refine cycle_instr hr (State.fetchDecode_ok_iff.2 ?_)
  rw [← s.bytesAtPc.take_append_drop (encode om i).length, State.take_bytesAtPc (encode_length_le om i) hmem]
  exact decode_encodeRecord (d := .instr i) h rfl _

/-- Settles O10: the halt class by itself; for the other bytes, the opcode that has the byte is the one asked
for, as a well-formed map gives no byte twice. -/
theorem dispatchMatchesWholeByte : Obligations.DispatchMatchesWholeByte := by
  unfold Obligations.DispatchMatchesWholeByte
  intro om s h hr hmem
  by_cases hop : (s.readByte s.pc).toNat / 16 = 0
  · rw [if_pos hop] at hmem
    exact ⟨fun m e => absurd (e ▸ hop) (OpMap.wf_ne_halt h m),
      fun _ => ⟨_, cycle_instr hr (s.fetchDecode_halt om hmem hop)⟩, fun hne => absurd hop hne⟩
  · rw [if_neg hop] at hmem
    obtain ⟨m, i, hm, hi, hfetch⟩ | ⟨hun, d, hd, hfetch⟩ := State.fetchDecode_dispatch h hop hmem
    · refine ⟨fun m' e => ?_, fun hzero => absurd hzero hop, fun _ hne => absurd hm (hne m)⟩
      obtain rfl := (OpMap.wf_eq_iff h).1 (hm.symm.trans e)
      exact ⟨i, hi, cycle_instr hr hfetch⟩
    · exact ⟨fun m e => absurd e (OpMap.unassigned_iff.1 hun m), fun hzero => absurd hzero hop,
        fun _ _ => ⟨d, hd, cycle_unassigned hr hfetch hd⟩⟩

end Sys2Proof.Machine
end

section
/-!
PROOFS. What a decoded cycle that does not fault counts and where it leaves PC and IA (spec/30_encoding.md R81, R86,
R87, spec/40_run_loop.md R114).
-/

namespace Sys2Proof.Machine

variable {om : OpMap} {s t u : State} {i : Instr} {d : Decoded}

/-! ### Advances, by the bytes of memory (R86, R87) -/

/-- The advance of the PC follows from the high nibble of the byte at the PC (R86). -/
theorem State.length_of_fetchDecode (h : s.fetchDecode om = .ok d) :
    d.length = if (s.readByte s.pc).toNat / 16 = 0 then 1
      else if (s.readByte s.pc).toNat / 16 = 1 then 2 else 4 := by
  obtain ⟨hop, rfl⟩ | ⟨hop, rfl⟩ | ⟨hop, rfl⟩ := State.fetchDecode_ok_cases h
  · rw [if_pos hop]; rfl
  · rw [if_neg (by omega), if_pos hop, Decoded.length, (recordRR_fields ..).1]; rfl
  · rw [if_neg (by omega), if_neg (by omega), Decoded.length, (recordRX_fields ..).1]; rfl

/-- The advance of the IA follows from the high nibble of the byte at the PC and, for RX, the displacement (R87). -/
theorem State.iaAdvance_of_fetchDecode (h : s.fetchDecode om = .ok d) :
    d.iaAdvance = if (s.readByte s.pc).toNat / 16 = 0 then 0
      else if (s.readByte s.pc).toNat / 16 = 1 then 2
      else if (s.readByte (s.pc + 2)).toNat % 16 * 256 + (s.readByte (s.pc + 3)).toNat = 4095 then 4095
      else 4 := by
  obtain ⟨hop, rfl⟩ | ⟨hop, rfl⟩ | ⟨hop, rfl⟩ := State.fetchDecode_ok_cases h
  · rw [if_pos hop]; rfl
  · rw [if_neg (by omega), if_pos hop]
    obtain ⟨hformat, hdisp, -⟩ := recordRR_fields om (s.readByte s.pc) (hi4 (s.readByte (s.pc + 1)))
      (lo4 (s.readByte (s.pc + 1)))
    simp [Decoded.iaAdvance, hdisp, hformat]
  · rw [if_neg (by omega), if_neg (by omega), ← dispOf_toNat, ← rxIaAdvance_eq, Decoded.iaAdvance,
      (recordRX_fields ..).2.1]

/-! ### What a completed handler counts (R81, R114) -/

/-- A completed handler has counted one fetch. -/
theorem Ran.fetch_eq (h : Ran s i u) : u.tally.fetch = s.tally.fetch + 1 := by
  cases h <;> simp [Tallies.countCache_eq]

/-- A completed handler has counted one dispatch of its own opcode, HALT none. -/
theorem Ran.exec_eq (h : Ran s i u) : u.tally.exec = i.op.elim s.tally.exec s.tally.exec.bump := by
  cases h <;> simp [Tallies.countCache_eq, Instr.op]

/-! ### Where a completed handler leaves PC and IA (R86, R87, R155, R160) -/

theorem not_branchTaken_of_unassigned (hd : ∀ i, d ≠ .instr i) : ¬ BranchTaken s d := by
  rintro (⟨r1, x2, b2, d2, e, -⟩ | ⟨m1, x2, b2, d2, e, -⟩)
  all_goals exact hd _ e

theorem branchTaken_bct_iff {r1 x2 b2 : Nibble} {d2 : Disp} :
    BranchTaken s (.instr (.bct r1 x2 b2 d2)) ↔ s.reg r1 - 1#32 ≠ 0#32 := by
  have hzero : s.reg r1 - 1#32 = 0#32 ↔ s.reg r1 = 1#32 := sub_eq_zero
  simp [BranchTaken, hzero]

theorem branchTaken_bc_iff {m1 x2 b2 : Nibble} {d2 : Disp} :
    BranchTaken s (.instr (.bc m1 x2 b2 d2)) ↔ s.ia + rxIaAdvance d2 ≤ 4095 ∧ bcTaken m1 s.cc = true := by
  simp [BranchTaken, rxIaAdvance_eq, Machine.bcTaken]

/-- A handler that takes no branch leaves PC and IA where decode put them. -/
theorem Ran.pc_ia_of_not_taken (h : Ran s i u) (hb : ¬ BranchTaken s (.instr i)) :
    u.pc = s.pc + (Decoded.instr i).length ∧ u.ia = s.ia + (Decoded.instr i).iaAdvance := by
  cases h
  case bctTaken h => exact absurd (branchTaken_bct_iff.2 h) hb
  case bcTaken h ht => exact absurd (branchTaken_bc_iff.2 ⟨h, ht⟩) hb
  all_goals exact ⟨rfl, rfl⟩

/-- A handler that takes its branch leaves PC and IA at the effective address. -/
theorem Ran.pc_ia_of_taken (h : Ran s i u) (hb : BranchTaken s (.instr i)) :
    (Decoded.instr i).ea = some u.pc ∧ u.pc = u.ia := by
  cases h
  case bctTaken => exact ⟨rfl, rfl⟩
  case bcTaken => exact ⟨rfl, rfl⟩
  case bctNotTaken h => exact absurd h (branchTaken_bct_iff.1 hb)
  case bcFatal h => exact absurd (branchTaken_bc_iff.1 hb).1 (Nat.not_le.2 h)
  case bcNotTaken ht => exact absurd (branchTaken_bc_iff.1 hb).2 (by simp [ht])
  all_goals simp [BranchTaken] at hb

/-! ### The cycle -/

/-- A decoded cycle that does not fault runs its instruction to the end, or skips an unassigned opcode. -/
theorem cycle_cases_of_decoded (hr : s.status = .running) (hd : s.fetchDecode om = .ok d)
    (ht : cycle om s = .next t) (hf : t.faulted = false) :
    (∃ i u, d = .instr i ∧ Ran s i u ∧ t = u.endCycle) ∨
    ((∀ i, d ≠ .instr i) ∧ t = (s.decodeAdvance d).endCycle) := by
  obtain ⟨hterm, -⟩ | ⟨f, -, rfl⟩ | ⟨i, u, -, hd', hran, rfl⟩ | ⟨d', -, hd', hun, rfl⟩ := cycle_cases ht
  · exact absurd hr hterm
  · exact absurd hf (by simp [State.faulted])
  · exact .inl ⟨i, u, Except.ok.inj (hd.symm.trans hd'), hran, rfl⟩
  · obtain rfl := Except.ok.inj (hd.symm.trans hd')
    exact .inr ⟨hun, rfl⟩

/-- A decoded cycle that takes no branch advances PC and IA as its record says. -/
theorem cycle_pc_ia_of_not_taken (hr : s.status = .running) (hd : s.fetchDecode om = .ok d)
    (ht : cycle om s = .next t) (hf : t.faulted = false) (hb : ¬ BranchTaken s d) :
    t.pc = s.pc + d.length ∧ t.ia = s.ia + d.iaAdvance := by
  obtain ⟨i, u, rfl, hran, rfl⟩ | ⟨-, rfl⟩ := cycle_cases_of_decoded hr hd ht hf
  · rw [u.endCycle_pc, u.endCycle_ia]
    exact hran.pc_ia_of_not_taken hb
  · rw [State.endCycle_pc, State.endCycle_ia]
    exact ⟨rfl, rfl⟩

/-- A decoded cycle that takes its branch leaves PC and IA at the effective address. -/
theorem cycle_pc_ia_of_taken (hr : s.status = .running) (hd : s.fetchDecode om = .ok d)
    (ht : cycle om s = .next t) (hf : t.faulted = false) (hb : BranchTaken s d) :
    d.ea = some t.pc ∧ t.pc = t.ia := by
  obtain ⟨i, u, rfl, hran, rfl⟩ | ⟨hun, -⟩ := cycle_cases_of_decoded hr hd ht hf
  · rw [u.endCycle_pc, u.endCycle_ia]
    exact hran.pc_ia_of_taken hb
  · exact absurd hb (not_branchTaken_of_unassigned hun)

end Sys2Proof.Machine
end

section
/-!
PROOFS. The statements on what every decoded cycle counts and how it moves PC and IA (spec/30_encoding.md R81, R86,
R87).
-/

namespace Sys2Proof.Machine

/-- Settles O41: a completed handler counts its own opcode, an unassigned opcode the fetch alone. -/
theorem fetchAndDispatchAreCounted : Obligations.FetchAndDispatchAreCounted := by
  unfold Obligations.FetchAndDispatchAreCounted
  intro om s t d hr hd ht hf
  obtain ⟨i, u, rfl, hran, rfl⟩ | ⟨hun, rfl⟩ := cycle_cases_of_decoded hr hd ht hf
  · rw [u.endCycle_tally, hran.exec_eq]
    refine ⟨hran.fetch_eq, fun m => ⟨?_, fun hne => ?_⟩⟩
    · rintro ⟨_, e, hm⟩
      obtain rfl := Decoded.instr.inj e
      rw [hm, Option.elim_some, OpTally.get_bump, if_pos rfl]
    · cases hop : i.op with
      | none => rfl
      | some n =>
        have hmn : m ≠ n := fun e => hne ⟨i, rfl, by rw [hop, e]⟩
        rw [Option.elim_some, OpTally.get_bump, if_neg hmn]
  · rw [State.endCycle_tally]
    exact ⟨rfl, fun m => ⟨fun ⟨i, e, _⟩ => absurd e (hun i), fun _ => rfl⟩⟩

/-- Settles O42: the advance is the length of the record, which the byte at the PC tells. -/
theorem pcMovesByFormatOrBranch : Obligations.PcMovesByFormatOrBranch := by
  unfold Obligations.PcMovesByFormatOrBranch
  intro om s t d hr hd ht hf
  rw [← State.length_of_fetchDecode hd]
  exact ⟨fun hb => (cycle_pc_ia_of_not_taken hr hd ht hf hb).1, fun hb => (cycle_pc_ia_of_taken hr hd ht hf hb).1⟩

/-- Settles O43: the advance is that of the record, which the bytes from the PC on tell. -/
theorem iaMovesByFormatOrBranch : Obligations.IaMovesByFormatOrBranch := by
  unfold Obligations.IaMovesByFormatOrBranch
  intro om s t d hr hd ht hf
  rw [← State.iaAdvance_of_fetchDecode hd]
  refine ⟨fun hb => (cycle_pc_ia_of_not_taken hr hd ht hf hb).2, fun hb => ?_⟩
  obtain ⟨hea, hpc⟩ := cycle_pc_ia_of_taken hr hd ht hf hb
  exact ⟨hpc ▸ hea, hpc⟩

end Sys2Proof.Machine
end

section
/-!
PROOFS. How a cycle ends (spec/40_run_loop.md R112, R115, R118): the status and the events each ending leaves, and
the whole effect of an unassigned opcode.
-/

namespace Sys2Proof.Machine

variable {om : OpMap} {s u : State} {i : Instr} {d : Decoded}

/-! ### The endings of an instruction (R118, R161, R190) -/

/-- A completed handler leaves status and events, or is HALT, or is a BC whose own advance leaves the IA above 4095,
which alone emits an event of its own. -/
theorem Ran.end_cases (h : Ran s i u) :
    (u.status = s.status ∧ u.events = s.events) ∨
    (u.status = .halted ∧ u.events = s.events ∧ ∃ g, i = .halt g) ∨
    (u.status = .fatalBC ∧ u.events = s.events ++ [u.dumpEvent] ∧
      ∃ m1 x2 b2 d2, i = .bc m1 x2 b2 d2 ∧ 4095 < s.ia + rxIaAdvance d2) := by
  cases h
  case halt g => exact .inr (.inl ⟨rfl, rfl, g, rfl⟩)
  case bcFatal m1 x2 b2 d2 h => exact .inr (.inr ⟨rfl, rfl, m1, x2, b2, d2, rfl, h⟩)
  all_goals exact .inl ⟨rfl, rfl⟩

/-- The trace of a cycle that ends in `running` tells the state after the cycle. -/
theorem State.endCycle_events_running (h : u.status = .running) :
    u.endCycle.events = u.events ++ [u.endCycle.traceEvent] := by
  rw [u.endCycle_running h]
  rfl

/-! ### The cycle of an unassigned opcode (R115) -/

/-- An unassigned byte of the RR or RX class, its bytes in memory, decodes to a record that is no instruction. -/
theorem State.fetchDecode_unassigned (h : om.wf = true) (hun : om.unassigned (s.readByte s.pc) = true)
    (hop : (s.readByte s.pc).toNat / 16 ≠ 0)
    (hmem : s.pc + (if (s.readByte s.pc).toNat / 16 = 1 then 2 else 4) ≤ memSize) :
    ∃ d, (∀ i, d ≠ .instr i) ∧ s.fetchDecode om = .ok d := by
  obtain ⟨m, -, hm, -, -⟩ | ⟨-, hd⟩ := State.fetchDecode_dispatch h hop hmem
  · exact absurd hm (OpMap.unassigned_iff.1 hun m)
  · exact hd

/-- The cycle of a record that is no instruction makes decode's changes and keeps everything else. -/
theorem cycle_unassigned_frame (hr : s.status = .running) (hfetch : s.fetchDecode om = .ok d)
    (hd : ∀ i, d ≠ .instr i) :
    ∃ t, cycle om s = .next t ∧ RanOn d s t ∧ t.pc = s.pc + d.length ∧ t.ia = s.ia + d.iaAdvance ∧
      t.tally = { s.tally with fetch := s.tally.fetch + 1 } ∧
      RegsKept s t ∧ t.cc = s.cc ∧ MemoryKept s t ∧ CacheKept s t := by
  refine ⟨s.skipUnassigned d, cycle_unassigned hr hfetch hd, ?_⟩
  rw [State.skipUnassigned, State.endCycle_running (s.decodeAdvance d) hr]
  exact ⟨⟨rfl, hr, rfl⟩, rfl, rfl, rfl, fun _ => rfl, rfl, fun _ => rfl, rfl⟩

end Sys2Proof.Machine
end

section
/-!
PROOFS. The statements on the run loop (spec/40_run_loop.md R110 to R118).
-/

namespace Sys2Proof.Machine

/-- Settles O8: the running cycle's branch for a decoded instruction, under the default map. -/
theorem stepRunsDecodedInstruction : Obligations.StepRunsDecodedInstruction := by
  unfold Obligations.StepRunsDecodedInstruction
  intro i s hr hfetch
  exact cycle_instr hr hfetch

/-- Settles O11: `cycle_unassigned_frame` in both classes, with the advances that the bytes at the PC tell. -/
theorem unassignedOpcodeIsIgnored : Obligations.UnassignedOpcodeIsIgnored := by
  unfold Obligations.UnassignedOpcodeIsIgnored
  intro om s h hr _ hun
  refine ⟨fun hrr hmem => ?rr, fun hrx hmem => ?rx⟩
  case rr =>
    obtain ⟨d, hd, hfetch⟩ := State.fetchDecode_unassigned h hun (by omega) (by rw [if_pos hrr]; exact hmem)
    obtain ⟨t, hcycle, hran, hpc, hia, hkept⟩ := cycle_unassigned_frame hr hfetch hd
    rw [State.length_of_fetchDecode hfetch, if_neg (by omega), if_pos hrr] at hpc
    rw [State.iaAdvance_of_fetchDecode hfetch, if_neg (by omega), if_pos hrr] at hia
    exact ⟨d, t, hfetch, hcycle, hran, hpc, hia, hkept⟩
  case rx =>
    have hzero : (s.readByte s.pc).toNat / 16 ≠ 0 := by omega
    have hone : (s.readByte s.pc).toNat / 16 ≠ 1 := by omega
    obtain ⟨d, hd, hfetch⟩ := State.fetchDecode_unassigned h hun hzero (by rw [if_neg hone]; exact hmem)
    obtain ⟨t, hcycle, hran, hpc, hia, hkept⟩ := cycle_unassigned_frame hr hfetch hd
    rw [State.length_of_fetchDecode hfetch, if_neg hzero, if_neg hone] at hpc
    rw [State.iaAdvance_of_fetchDecode hfetch, if_neg hzero, if_neg hone] at hia
    exact ⟨d, t, hfetch, hcycle, hran, hpc, hia, hkept⟩

/-- Settles O13: the fetch faults, or it gives an instruction, which ends as `exec_cases` and `Ran.end_cases` say,
or a record that is none, which leaves the status. -/
theorem cycleOutcomes : Obligations.CycleOutcomes := by
  unfold Obligations.CycleOutcomes
  intro om s hr
  cases hfetch : s.fetchDecode om with
  | error f =>
    obtain ⟨a, rfl, hbeyond, hlow, hhigh⟩ := State.fetchDecode_error hfetch
    exact ⟨_, cycle_fetchFault hr hfetch, .inr (.inr (.inr (.inl ⟨a, rfl, hbeyond, hlow, hhigh, rfl⟩)))⟩
  | ok d =>
    by_cases hinstr : ∃ i, d = .instr i
    · obtain ⟨i, rfl⟩ := hinstr
      rw [cycle_instr hr hfetch]
      obtain ⟨u, hran, hexec⟩ | ⟨a, n, hbeyond, hop, hexec⟩ := exec_cases i s
      · refine ⟨u.endCycle, hexec, ?_⟩
        rw [u.endCycle_status]
        obtain ⟨hs, -⟩ | ⟨hs, -, g, rfl⟩ | ⟨hs, -, m1, x2, b2, d2, rfl, hia⟩ := hran.end_cases
        · exact .inl (hs.trans hr)
        · exact .inr (.inl ⟨hs, g, rfl⟩)
        · exact .inr (.inr (.inl ⟨hs, m1, x2, b2, d2, rfl, hia⟩))
      · exact ⟨_, hexec, .inr (.inr (.inr (.inr ⟨a, n, i, rfl, hbeyond, rfl, hop⟩)))⟩
    · obtain ⟨t, hcycle, ⟨-, hs, -⟩, -⟩ := cycle_unassigned_frame hr hfetch fun i e => hinstr ⟨i, e⟩
      exact ⟨t, hcycle, .inl hs⟩

/-- Settles O16: the end of the cycle adds the trace to an ending in `running` and nothing to any other; of the
others only the fatal BC has emitted an event before it. -/
theorem eventsOfACycle : Obligations.EventsOfACycle := by
  unfold Obligations.EventsOfACycle
  intro om s t hr hcycle
  obtain ⟨hterm, -⟩ | ⟨f, -, rfl⟩ | ⟨i, u, -, -, hran, rfl⟩ | ⟨d, -, -, -, rfl⟩ := cycle_cases hcycle
  · exact absurd hr hterm
  · exact ⟨nofun, nofun, nofun, fun _ _ => rfl⟩
  · rw [u.endCycle_status]
    obtain ⟨hs, he⟩ | ⟨hs, he, -⟩ | ⟨hs, he, -⟩ := hran.end_cases
    · rw [hs, hr, State.endCycle_events_running (hs.trans hr), he]
      exact ⟨fun _ => rfl, nofun, nofun, fun _ => nofun⟩
    · rw [u.endCycle_terminal (by simp [hs]), hs, he]
      exact ⟨nofun, nofun, fun _ => rfl, fun _ => nofun⟩
    · rw [u.endCycle_terminal (by simp [hs]), hs, he]
      exact ⟨nofun, fun _ => rfl, nofun, fun _ => nofun⟩
  · rw [State.endCycle_status, State.decodeAdvance_status, hr, State.endCycle_events_running (u := s.decodeAdvance d) hr]
    exact ⟨fun _ => rfl, nofun, nofun, fun _ => nofun⟩

end Sys2Proof.Machine
end

section
/-!
PROOFS. The register-to-register instructions (spec/41_rr_ops.md): the frame that LR, CR, AR and SR share, and the two
condition codes, signed comparison and sign of the result, as the sign of one integer.
-/

namespace Sys2Proof.Machine

variable {s u : State} {i : Instr} {m : Op}

/-! ### The shared frame (R146) -/

/-- From `s` to `t`, the instruction `i` with the opcode `m` advances PC and IA by 2, counts its fetch and its dispatch,
runs on, and keeps memory and the cache. -/
def RrFrame (i : Instr) (m : Op) (s t : State) : Prop :=
  t.pc = s.pc + 2 ∧ t.ia = s.ia + 2 ∧ RanOn (.instr i) s t ∧
    t.tally = { s.tally with fetch := s.tally.fetch + 1, exec := s.tally.exec.bump m } ∧
    MemoryKept s t ∧ CacheKept s t

/-- Each of the four handlers writes a register or the condition code only, after decode and the dispatch's tally. -/
theorem Ran.rrFrame (h : Ran s i u) (hformat : i.format = .rr) (hop : i.op = some m) (hr : s.status = .running) :
    RrFrame i m s u := by
  cases h
  case lr | cr | ar | sr =>
    cases hop
    exact ⟨rfl, rfl, ⟨rfl, hr, rfl⟩, rfl, fun _ => rfl, rfl⟩
  all_goals cases hformat

/-- The end of a cycle keeps every field that the frame speaks of. -/
theorem RrFrame.endCycle (h : RrFrame i m s u) : RrFrame i m s u.endCycle := by
  simpa [RrFrame, RanOn, MemoryKept, CacheKept] using h

/-- A register-to-register instruction completes, within the frame. -/
theorem exec_rr (hformat : i.format = .rr) (hr : s.status = .running) :
    ∃ m u, i.op = some m ∧ Ran s i u ∧ exec i s = .next u.endCycle ∧ RrFrame i m s u.endCycle := by
  have completes : ∃ m u, i.op = some m ∧ Ran s i u ∧ exec i s = .next u.endCycle := by
    cases i
    case lr r1 r2 => exact ⟨.lr, _, rfl, .lr r1 r2, rfl⟩
    case cr r1 r2 => exact ⟨.cr, _, rfl, .cr r1 r2, rfl⟩
    case ar r1 r2 => exact ⟨.ar, _, rfl, .ar r1 r2, rfl⟩
    case sr r1 r2 => exact ⟨.sr, _, rfl, .sr r1 r2, rfl⟩
    all_goals cases hformat
  obtain ⟨m, u, hop, hran, hexec⟩ := completes
  exact ⟨m, u, hop, hran, hexec, (hran.rrFrame hformat hop hr).endCycle⟩

/-! ### The condition codes (R15) -/

/-- The condition code that tells the sign of an integer. -/
def ccOfSign (d : Int) : CondCode := if d = 0 then .equal else if d < 0 then .less else .greater

theorem ccOfSign_of_neg {d : Int} (h : d < 0) : ccOfSign d = .less := by
  rw [ccOfSign, if_neg (by omega), if_pos h]

theorem ccOfSign_of_pos {d : Int} (h : 0 < d) : ccOfSign d = .greater := by
  rw [ccOfSign, if_neg (by omega), if_neg (by omega)]

/-- AR and SR set the condition code by the sign of the result, read as signed. -/
theorem sign3_eq_ccOfSign (w : Word) : sign3 w = ccOfSign w.toInt := by
  have hzero : w = 0#32 ↔ w.toInt = 0 := by rw [← BitVec.toInt_inj, BitVec.toInt_zero]
  simp only [sign3, ccOfSign, hzero]

/-- CR sets the condition code by the sign of the exact difference. -/
theorem cmp3_eq_ccOfSign (a b : Word) : cmp3 a b = ccOfSign (a.toInt - b.toInt) := by
  simp only [cmp3, ccOfSign, sub_eq_zero, sub_neg]

/-- The signed value of a wrapped difference is the exact difference where that one is in range, and where it is
not, the two have opposite signs (R147). -/
theorem toInt_sub_cases (a b : Word) :
    ((-2147483648 ≤ a.toInt - b.toInt ∧ a.toInt - b.toInt ≤ 2147483647) ∧ (a - b).toInt = a.toInt - b.toInt) ∨
    (a.toInt - b.toInt < -2147483648 ∧ 0 < (a - b).toInt) ∨
    (2147483647 < a.toInt - b.toInt ∧ (a - b).toInt < 0) := by
  have hwrap : (a - b).toInt = (a.toInt - b.toInt).bmod (2 ^ 32) := BitVec.toInt_sub
  have halow := a.le_toInt
  have hahigh := a.toInt_lt
  have hblow := b.le_toInt
  have hbhigh := b.toInt_lt
  rw [Int.bmod_def] at hwrap
  omega

end Sys2Proof.Machine
end

section
/-!
PROOFS. The statements on the register-to-register instructions (spec/41_rr_ops.md R130 to R147).
-/

namespace Sys2Proof.Machine

/-- Settles O22: the shared frame of the four instructions; the one opcode tally that `bump` counts is their own. -/
theorem rrInstructionsTouchNothingElse : Obligations.RrInstructionsTouchNothingElse := by
  unfold Obligations.RrInstructionsTouchNothingElse
  intro i s t hformat hr hexec
  obtain ⟨m, u, hop, -, hnext, hpc, hia, -, htally, hmem, hcache⟩ := exec_rr hformat hr
  obtain rfl : u.endCycle = t := Host.Outcome.next.inj (hnext.symm.trans hexec)
  rw [htally]
  refine ⟨hmem, hcache, hpc, hia, m, hop, ?_, fun n hn => ?_, rfl⟩
  · rw [OpTally.get_bump, if_pos rfl]
  · rw [OpTally.get_bump, if_neg hn]

/-- Settles O23: in range the exact and the wrapped difference are one integer; out of range their signs differ. -/
theorem subtractAgreesWithCompareUnlessOverflow : Obligations.SubtractAgreesWithCompareUnlessOverflow := by
  unfold Obligations.SubtractAgreesWithCompareUnlessOverflow
  intro a b
  rw [sign3_eq_ccOfSign, cmp3_eq_ccOfSign]
  obtain ⟨hrange, hexact⟩ | ⟨hlow, hpos⟩ | ⟨hhigh, hneg⟩ := toInt_sub_cases a b
  · rw [hexact]
    exact iff_of_true rfl hrange
  · rw [ccOfSign_of_pos hpos, ccOfSign_of_neg (by omega)]
    exact iff_of_false nofun (by omega)
  · rw [ccOfSign_of_neg hneg, ccOfSign_of_pos (by omega)]
    exact iff_of_false nofun (by omega)

/-- Settles O18: R1 is written with the value that R2 has at the start of the cycle. -/
theorem lrCopiesRegister : Obligations.LrCopiesRegister := by
  unfold Obligations.LrCopiesRegister
  intro r1 r2 s hr
  obtain ⟨m, u, hop, hran, hexec, hframe⟩ := exec_rr (i := .lr r1 r2) rfl hr
  cases hop
  cases hran
  exact ⟨fun _ => rfl, _, hexec, by simp, fun q hq => by simp [State.reg_setReg_other, hq], by simp, hframe⟩

/-- Settles O19: the condition code is the only field that CR's handler writes. -/
theorem crComparesSigned : Obligations.CrComparesSigned := by
  unfold Obligations.CrComparesSigned
  intro r1 r2 s hr
  obtain ⟨m, u, hop, hran, hexec, hframe⟩ := exec_rr (i := .cr r1 r2) rfl hr
  cases hop
  cases hran
  exact ⟨fun _ => rfl, _, hexec, by simp [cmp3], fun q => by simp, hframe⟩

/-- Settles O20: one result, written to R1 and tested for its sign. -/
theorem arAddsAndSetsSign : Obligations.ArAddsAndSetsSign := by
  unfold Obligations.ArAddsAndSetsSign
  intro r1 r2 s hr
  obtain ⟨m, u, hop, hran, hexec, hframe⟩ := exec_rr (i := .ar r1 r2) rfl hr
  cases hop
  cases hran
  exact ⟨fun _ => rfl, _, hexec, by simp, fun q hq => by simp [State.reg_setReg_other, hq], by simp [sign3], hframe⟩

/-- Settles O21: as for AR, with the difference. -/
theorem srSubtractsAndSetsSign : Obligations.SrSubtractsAndSetsSign := by
  unfold Obligations.SrSubtractsAndSetsSign
  intro r1 r2 s hr
  obtain ⟨m, u, hop, hran, hexec, hframe⟩ := exec_rr (i := .sr r1 r2) rfl hr
  cases hop
  cases hran
  exact ⟨fun _ => rfl, _, hexec, by simp, fun q hq => by simp [State.reg_setReg_other, hq], by simp [sign3], hframe⟩

end Sys2Proof.Machine
end

section
/-!
PROOFS. LA, BCT and BC (spec/42_rx_address_branch.md): the frame that the three share, where they leave PC, IA and the
tallies when no branch is taken and when one is, and the mask test of BC bit by bit.
-/

namespace Sys2Proof.Machine

variable {s u : State} {i : Instr} {m : Op} {r1 m1 x2 b2 : Nibble} {d2 : Disp}

/-! ### The shared frame (R150, R155, R160) -/

/-- The instruction is LA, BCT or BC, with the opcode `m`. -/
def AddressOrBranch (i : Instr) (m : Op) : Prop := i.op = some m ∧ m ∈ [Op.la, .bct, .bc]

/-- From `s` to `t`, the record of `i` is written, and the condition code, the halt flag, memory and the cache are
kept. -/
def AddressFrame (i : Instr) (s t : State) : Prop :=
  t.cc = s.cc ∧ t.record = some (.instr i) ∧ t.halted = s.halted ∧ MemoryKept s t ∧ CacheKept s t

/-- None of the handlers writes anything but registers, PC, IA, tallies, status and events. -/
theorem Ran.addressFrame (h : Ran s i u) (hi : AddressOrBranch i m) : AddressFrame i s u := by
  obtain ⟨hop, hm⟩ := hi
  cases h
  case la | bctTaken | bctNotTaken | bcFatal | bcTaken | bcNotTaken => exact ⟨rfl, rfl, rfl, fun _ => rfl, rfl⟩
  case halt => cases hop
  all_goals
    cases hop
    simp at hm

/-- The end of a cycle keeps every field that the frame speaks of. -/
theorem AddressFrame.endCycle (h : AddressFrame i s u) : AddressFrame i s u.endCycle := by
  simpa [AddressFrame, MemoryKept, CacheKept] using h

/-- LA, BCT and BC raise no fault: each completes, within the frame. -/
theorem exec_addressOrBranch (hi : AddressOrBranch i m) (s : State) :
    ∃ u, Ran s i u ∧ exec i s = .next u.endCycle ∧ AddressFrame i s u.endCycle := by
  obtain ⟨u, hran, hexec⟩ | ⟨_, _, -, hdata, -⟩ := exec_cases i s
  · exact ⟨u, hran, hexec, (hran.addressFrame hi).endCycle⟩
  · obtain ⟨hop, hm⟩ := hi
    obtain rfl | rfl | rfl : m = .st ∨ m = .l ∨ m = .c := by simpa [hop] using hdata
    all_goals simp at hm

/-! ### No branch taken (R86, R87, R114) -/

/-- From `s` to `t`, PC and IA advance as decode of an RX instruction with the displacement `d2` does, and the fetch
and the dispatch of `m` are all that is counted. -/
def RxAdvanced (m : Op) (d2 : Disp) (s t : State) : Prop :=
  t.pc = s.pc + 4 ∧ t.ia = s.ia + (if d2.toNat = 4095 then 4095 else 4) ∧
    t.tally = { s.tally with fetch := s.tally.fetch + 1, exec := s.tally.exec.bump m }

theorem RxAdvanced.endCycle (h : RxAdvanced m d2 s u) : RxAdvanced m d2 s u.endCycle := by
  simpa [RxAdvanced] using h

/-- LA, a branch that is not taken and a fatal BC leave PC, IA and tallies as decode and dispatch do. -/
theorem Ran.rxAdvanced (h : Ran s i u) (hi : AddressOrBranch i m) (hd : i.disp = some d2)
    (hb : ¬ BranchTaken s (.instr i)) : RxAdvanced m d2 s u.endCycle := by
  obtain ⟨hop, hm⟩ := hi
  refine RxAdvanced.endCycle ?_
  cases h
  case la | bctNotTaken | bcFatal | bcNotTaken =>
    cases hop
    cases hd
    exact ⟨rfl, rfl, rfl⟩
  case bctTaken h => exact absurd (branchTaken_bct_iff.2 h) hb
  case bcTaken h ht => exact absurd (branchTaken_bc_iff.2 ⟨h, ht⟩) hb
  case halt => cases hop
  all_goals
    cases hop
    simp at hm

/-! ### BCT (R155) -/

/-- Taken or not, BCT leaves the registers with R1 decremented, and the status as it was. -/
theorem Ran.bct_regs_status (h : Ran s (.bct r1 x2 b2 d2) u) :
    u.regs = (s.setReg r1 (s.reg r1 - 1#32)).regs ∧ u.status = s.status := by
  cases h with
  | bctTaken => exact ⟨rfl, rfl⟩
  | bctNotTaken => exact ⟨rfl, rfl⟩

/-- A BCT whose register was not 1 branches to the raw sum of its fields, and counts the branch. -/
theorem Ran.bct_taken (h : Ran s (.bct r1 x2 b2 d2) u) (hne : s.reg r1 ≠ 1#32) :
    u.pc = x2.toNat + b2.toNat + d2.toNat ∧ u.ia = x2.toNat + b2.toNat + d2.toNat ∧
      u.tally = { s.tally with fetch := s.tally.fetch + 1,
                               exec := s.tally.exec.bump .bct,
                               takenBct := s.tally.takenBct + 1 } := by
  cases h with
  | bctTaken => exact ⟨rfl, rfl, rfl⟩
  | bctNotTaken _ _ _ _ hzero => exact absurd (sub_eq_zero.1 hzero) hne

/-! ### BC (R160 to R162) -/

/-- With the IA above 4095 BC dumps and stops, whatever its mask (R161). -/
theorem Ran.bc_fatal (h : Ran s (.bc m1 x2 b2 d2) u) (hia : 4095 < s.ia + rxIaAdvance d2) :
    u.status = .fatalBC ∧ u.events = s.events ++ [.dump s.regs u.ia s.cc] ∧ u.regs = s.regs := by
  cases h with
  | bcFatal => exact ⟨rfl, rfl, rfl⟩
  | bcTaken _ _ _ _ hle => exact absurd hia (Nat.not_lt.2 hle)
  | bcNotTaken _ _ _ _ hle => exact absurd hia (Nat.not_lt.2 hle)

/-- With the IA at most 4095 BC runs on, taken or not, and writes no register. -/
theorem Ran.bc_regs_status (h : Ran s (.bc m1 x2 b2 d2) u) (hia : s.ia + rxIaAdvance d2 ≤ 4095) :
    u.regs = s.regs ∧ u.status = s.status := by
  cases h with
  | bcFatal _ _ _ _ hlt => exact absurd hlt (Nat.not_lt.2 hia)
  | bcTaken => exact ⟨rfl, rfl⟩
  | bcNotTaken => exact ⟨rfl, rfl⟩

/-- A BC whose mask meets the condition code branches to the raw sum of its fields, and counts the branch. -/
theorem Ran.bc_taken (h : Ran s (.bc m1 x2 b2 d2) u) (hia : s.ia + rxIaAdvance d2 ≤ 4095)
    (hmask : Machine.bcTaken m1 s.cc = true) :
    u.pc = x2.toNat + b2.toNat + d2.toNat ∧ u.ia = x2.toNat + b2.toNat + d2.toNat ∧
      u.tally = { s.tally with fetch := s.tally.fetch + 1,
                               exec := s.tally.exec.bump .bc,
                               takenBc := s.tally.takenBc + 1 } := by
  cases h with
  | bcFatal _ _ _ _ hlt => exact absurd hlt (Nat.not_lt.2 hia)
  | bcTaken => exact ⟨rfl, rfl, rfl⟩
  | bcNotTaken _ _ _ _ _ hnot => exact absurd hmask (by simp [hnot])

theorem bcTaken_iff (cc : CondCode) : bcTaken m1 cc = true ↔ m1 &&& cc.value ≠ 0#4 := bne_iff_ne

/-- A mask meets a single bit exactly when it has that bit. -/
theorem and_twoPow_ne_zero_iff (m1 : Nibble) {k : Nat} (hk : k < 4) :
    m1 &&& BitVec.twoPow 4 k ≠ 0#4 ↔ m1.getLsbD k = true := by
  have hbit : BitVec.twoPow 4 k ≠ 0#4 := fun e => by
    simpa [hk] using congrArg (BitVec.getLsbD · k) e
  rw [BitVec.and_twoPow]
  split
  · next hset => exact iff_of_true hbit hset
  · next hclear => exact iff_of_false (fun h => h rfl) hclear

/-- A condition code's value has bits 1 and 0 only. -/
theorem CondCode.low_bits_value (cc : CondCode) : 3#4 &&& cc.value = cc.value := by
  cases cc <;> rfl

end Sys2Proof.Machine
end

section
/-!
PROOFS. The statements on LA, BCT and BC (spec/42_rx_address_branch.md R150 to R163).
-/

namespace Sys2Proof.Machine

/-- Settles O25: R1 is decremented in both cases, and whether it was 1 decides between the branch and decode's
advance. -/
theorem bctDecrementsAndBranches : Obligations.BctDecrementsAndBranches := by
  unfold Obligations.BctDecrementsAndBranches
  intro r1 x2 b2 d2 s hr
  have hi : AddressOrBranch (.bct r1 x2 b2 d2) .bct := ⟨rfl, by simp⟩
  obtain ⟨u, hran, hexec, hcc, hrecord, hhalted, hmem, hcache⟩ := exec_addressOrBranch hi s
  obtain ⟨hregs, hstatus⟩ := hran.bct_regs_status
  have hreg (q : Nibble) : u.endCycle.reg q = (s.setReg r1 (s.reg r1 - 1#32)).reg q :=
    State.reg_congr _ (by rw [u.endCycle_regs, hregs]) q
  refine ⟨fun _ => rfl, u.endCycle, hexec, by rw [hreg, State.reg_setReg_same],
    fun q hq => by rw [hreg, State.reg_setReg_other _ _ hq], hcc,
    ⟨hrecord, by rw [u.endCycle_status, hstatus, hr], hhalted⟩, hmem, hcache, fun hne => ?_, fun hone => ?_⟩
  · rw [u.endCycle_pc, u.endCycle_ia, u.endCycle_tally]
    exact hran.bct_taken hne
  · refine hran.rxAdvanced hi rfl fun hb => ?_
    exact branchTaken_bct_iff.1 hb (sub_eq_zero.2 hone)

/-- Settles O26: the IA passes the fatal check, so the mask alone decides between the branch and decode's advance. -/
theorem bcBranchesOnMask : Obligations.BcBranchesOnMask := by
  unfold Obligations.BcBranchesOnMask
  intro m1 x2 b2 d2 s hr hia
  have hi : AddressOrBranch (.bc m1 x2 b2 d2) .bc := ⟨rfl, by simp⟩
  obtain ⟨u, hran, hexec, hcc, hrecord, hhalted, hmem, hcache⟩ := exec_addressOrBranch hi s
  obtain ⟨hregs, hstatus⟩ := hran.bc_regs_status hia
  refine ⟨fun _ => rfl, u.endCycle, hexec, State.reg_congr _ (by rw [u.endCycle_regs, hregs]), hcc,
    ⟨hrecord, by rw [u.endCycle_status, hstatus, hr], hhalted⟩, hmem, hcache, fun hmask => ?_, fun hmask => ?_⟩
  · rw [u.endCycle_pc, u.endCycle_ia, u.endCycle_tally]
    exact hran.bc_taken hia ((bcTaken_iff _).2 hmask)
  · refine hran.rxAdvanced hi rfl fun hb => ?_
    exact (bcTaken_iff _).1 (branchTaken_bc_iff.1 hb).2 hmask

/-- Settles O24: LA has one ending, which writes R1 and takes no branch. -/
theorem laLoadsDisplacement : Obligations.LaLoadsDisplacement := by
  unfold Obligations.LaLoadsDisplacement
  intro r1 x2 b2 d2 s hr
  have hi : AddressOrBranch (.la r1 x2 b2 d2) .la := ⟨rfl, by simp⟩
  obtain ⟨u, hran, hexec, hcc, hrecord, hhalted, hmem, hcache⟩ := exec_addressOrBranch hi s
  obtain ⟨hpc, hia, htally⟩ := hran.rxAdvanced hi rfl (by simp [BranchTaken])
  have hzext : (zext32 d2).toNat = d2.toNat := BitVec.toNat_setWidth_of_le (by decide)
  cases hran
  exact ⟨fun _ => rfl, _, hexec, by simp [hzext], fun q hq => by simp [State.reg_setReg_other, hq], hcc, hpc, hia,
    ⟨hrecord, by simp [hr], hhalted⟩, htally, hmem, hcache⟩

/-- Settles O27: the fatal check comes before the mask, and its terminal status lets no trace follow the dump. -/
theorem bcFatalAboveIaLimit : Obligations.BcFatalAboveIaLimit := by
  unfold Obligations.BcFatalAboveIaLimit
  intro m1 x2 b2 d2 s hia
  have hi : AddressOrBranch (.bc m1 x2 b2 d2) .bc := ⟨rfl, by simp⟩
  obtain ⟨u, hran, hexec, hcc, hrecord, hhalted, hmem, hcache⟩ := exec_addressOrBranch hi s
  obtain ⟨hstatus, hevents, hregs⟩ := hran.bc_fatal hia
  have hadvanced := hran.rxAdvanced hi rfl fun hb => Nat.not_le.2 hia (branchTaken_bc_iff.1 hb).1
  rw [u.endCycle_terminal (by simp [hstatus])] at hexec hcc hrecord hhalted hmem hcache hadvanced
  exact ⟨u, hexec, hstatus, by rw [hstatus]; rfl, hhalted, hevents, State.reg_congr _ hregs, hcc, hmem, hcache,
    hrecord, hadvanced⟩

/-- Settles O28: the condition codes are 0, one bit and one bit, the lowest two. -/
theorem bcMaskTable : Obligations.BcMaskTable := by
  unfold Obligations.BcMaskTable
  intro m1
  refine ⟨BitVec.and_zero, and_twoPow_ne_zero_iff m1 (k := 0) (by decide),
    and_twoPow_ne_zero_iff m1 (k := 1) (by decide), fun cc => ?_⟩
  rw [bcTaken, bcTaken, BitVec.and_assoc, CondCode.low_bits_value]

end Sys2Proof.Machine
end

section
/-!
PROOFS. ST, L and C (spec/43_rx_storage.md): the range check that decides between the two endings of each (R54), the
frame that the three share when they complete, and what a store leaves in memory.
-/

namespace Sys2Proof.Machine

variable {s t u : State} {i : Instr} {m : Op} {r1 x2 b2 : Nibble} {d2 : Disp} {a n ca : Nat} {p : StAccess}

/-! ### The range check (R54, R201) -/

/-- The address and the number of the bytes that an instruction, run from `s`, reads or writes as data: ST, L and C
have them. -/
def State.dataRange (s : State) : Instr → Option (Nat × Nat)
  | .st r1 x2 b2 d2 => some ((stAccess s r1 x2 b2 d2).store, (stAccess s r1 x2 b2 d2).bytes.length)
  | .l _ x2 b2 d2 => some (rxEa x2 b2 d2, 4)
  | .c _ x2 b2 d2 => some (rxEa x2 b2 d2, 4)
  | .lr .. | .cr .. | .ar .. | .sr .. | .la .. | .bct .. | .bc .. | .halt _ => none

theorem State.dataRange_st (hp : stAccess s r1 x2 b2 d2 = p) :
    s.dataRange (.st r1 x2 b2 d2) = some (p.store, p.bytes.length) := by
  rw [State.dataRange, hp]

theorem State.cacheAddress_st (hp : stAccess s r1 x2 b2 d2 = p) :
    s.cacheAddress (.st r1 x2 b2 d2) = some p.cache := by
  rw [State.cacheAddress, hp]

/-- The handler of an instruction with a data range is the check of that range, and then an ending of `Ran`. -/
theorem dispatched_eq_checkRange (hi : s.dataRange i = some (a, n)) :
    ∃ u, (a + n ≤ memSize → Ran s i u) ∧
      dispatched i (s.decodeAdvance (.instr i)) = (do checkRange a n; return u) := by
  cases i
  case st r1 x2 b2 d2 =>
    cases hi
    exact ⟨_, .st r1 x2 b2 d2, rfl⟩
  case l r1 x2 b2 d2 =>
    cases hi
    exact ⟨_, fun h => .l r1 x2 b2 d2 (Nat.le_of_add_le_add_right h), rfl⟩
  case c r1 x2 b2 d2 =>
    cases hi
    exact ⟨_, fun h => .c r1 x2 b2 d2 (Nat.le_of_add_le_add_right h), rfl⟩
  all_goals cases hi

/-- In range, the instruction completes. -/
theorem exec_inRange (hi : s.dataRange i = some (a, n)) (h : a + n ≤ memSize) :
    ∃ u, Ran s i u ∧ exec i s = .next u.endCycle := by
  obtain ⟨u, hran, hchecked⟩ := dispatched_eq_checkRange hi
  rw [checkRange_ok h] at hchecked
  exact ⟨u, hran h, (exec_eq_runCycle i s).trans (runCycle_ok hchecked)⟩

/-- Out of range, the state at the start of the cycle takes the fault. -/
theorem exec_outOfRange (hi : s.dataRange i = some (a, n)) (h : memSize < a + n) :
    exec i s = .next (s.takeFault (.dataOutOfRange a n)) := by
  obtain ⟨u, -, hchecked⟩ := dispatched_eq_checkRange hi
  rw [checkRange_error h] at hchecked
  exact (exec_eq_runCycle i s).trans (runCycle_error hchecked)

/-! ### The shared frame (R60, R62, R86, R87, R114) -/

/-- From `s` to `t`, the instruction `i` with the opcode `m` and the displacement `d2` accesses the cache once, at
`ca`, advances PC and IA as decode of RX does, runs on, and counts its fetch, its dispatch, its write or read of memory
and its hit or miss. -/
def DataFrame (i : Instr) (m : Op) (d2 : Disp) (ca : Nat) (s t : State) : Prop :=
  t.cache = s.cache.access ca ∧ t.pc = s.pc + 4 ∧ t.ia = s.ia + (if d2.toNat = 4095 then 4095 else 4) ∧
    RanOn (.instr i) s t ∧
    t.tally = { s.tally with
      fetch := s.tally.fetch + 1
      exec := s.tally.exec.bump m
      memReads := s.tally.memReads + (if m = .st then 0 else 1)
      memWrites := s.tally.memWrites + (if m = .st then 1 else 0)
      cacheHits := s.tally.cacheHits + (if (s.cache.hitBank ca).isSome then 1 else 0)
      cacheMisses := s.tally.cacheMisses + (if (s.cache.hitBank ca).isSome then 0 else 1) }

/-- The three handlers make one access and one count; beside these they write a register, the condition code or
memory only. -/
theorem Ran.dataFrame (h : Ran s i u) (hr : s.status = .running) (hop : i.op = some m) (hd : i.disp = some d2)
    (hca : s.cacheAddress i = some ca) : DataFrame i m d2 ca s u := by
  cases h
  case st | l | c =>
    cases hop
    cases hd
    cases hca
    exact ⟨rfl, rfl, rfl, ⟨rfl, hr, rfl⟩, by simp [Tallies.countCache_eq]⟩
  all_goals cases hca

/-- The end of a cycle keeps every field that the frame speaks of. -/
theorem DataFrame.endCycle (h : DataFrame i m d2 ca s u) : DataFrame i m d2 ca s u.endCycle := by
  simpa [DataFrame, RanOn] using h

/-- An instruction whose data lies in memory completes, within the frame. -/
theorem exec_dataAccess (hr : s.status = .running) (hop : i.op = some m) (hd : i.disp = some d2)
    (hca : s.cacheAddress i = some ca) (hi : s.dataRange i = some (a, n)) (h : a + n ≤ memSize) :
    ∃ u, Ran s i u ∧ exec i s = .next u.endCycle ∧ DataFrame i m d2 ca s u.endCycle := by
  obtain ⟨u, hran, hexec⟩ := exec_inRange hi h
  exact ⟨u, hran, hexec, (hran.dataFrame hr hop hd hca).endCycle⟩

/-! ### Stores (R170) -/

/-- An ST in range completes, and beside the frame it does the store of its case and nothing else. -/
theorem exec_st (hr : s.status = .running) (hp : stAccess s r1 x2 b2 d2 = p)
    (h : p.store + p.bytes.length ≤ memSize) :
    ∃ t, exec (.st r1 x2 b2 d2) s = .next t ∧ t.mem = (s.writeBytes p.store p.bytes).mem ∧ RegsKept s t ∧
      t.cc = s.cc ∧ DataFrame (.st r1 x2 b2 d2) .st d2 p.cache s t := by
  obtain ⟨u, hran, hexec, hframe⟩ :=
    exec_dataAccess hr rfl rfl (State.cacheAddress_st hp) (State.dataRange_st hp) h
  subst hp
  cases hran
  exact ⟨_, hexec, by simp, fun q => by simp, by simp, hframe⟩

/-- A memory that is `s`'s with bytes stored at `a` reads as `s`'s outside them. -/
theorem memoryKeptOutside_of_mem_eq {bs : List Byte} (h : t.mem = (s.writeBytes a bs).mem) :
    MemoryKeptOutside a bs.length s t := fun q hq =>
  (State.readByte_congr _ h q).trans (State.readByte_writeBytes_outside hq)

/-- A memory that is `s`'s with a word stored at `a` holds the word's bytes there, most significant first (R52). -/
theorem readByte_of_mem_eq_wordBytes {w : Word} (hm : MemoryCanonical s) (ha : a + 4 ≤ memSize)
    (h : t.mem = (s.writeBytes a (wordBytes w)).mem) :
    t.readByte a = w.extractLsb' 24 8 ∧ t.readByte (a + 1) = w.extractLsb' 16 8 ∧
      t.readByte (a + 2) = w.extractLsb' 8 8 ∧ t.readByte (a + 3) = w.extractLsb' 0 8 := by
  simp only [State.readByte_congr _ h]
  exact State.readByte_writeBytes_wordBytes hm ha w

/-- A memory that is `s`'s with one byte stored at `a` holds the byte there. -/
theorem readByte_of_mem_eq_byte {b : Byte} (hm : MemoryCanonical s) (ha : a < memSize)
    (h : t.mem = (s.writeBytes a [b]).mem) : t.readByte a = b :=
  (State.readByte_congr _ h a).trans (State.readByte_writeBytes_inside (k := 0) (bs := [b]) hm ha Nat.one_pos)

theorem toNat_trunc8 (w : Word) : (trunc8 w).toNat = w.toNat % 256 := by
  simp [trunc8]

end Sys2Proof.Machine
end

section
/-!
PROOFS. The statements on the storage instructions (spec/43_rx_storage.md R170 to R185).
-/

namespace Sys2Proof.Machine

/-- Settles O29: case (a) of `stAccess` is a word stored at x[B2], whichever of its two cache addresses it has. -/
theorem stCaseAStoresAtBase : Obligations.StCaseAStoresAtBase := by
  unfold Obligations.StCaseAStoresAtBase
  intro r1 x2 b2 d2 s hr hm hb ha
  have hrange : (s.reg b2).toNat + 4 ≤ memSize := Nat.add_le_add_right ha 4
  obtain ⟨t, hexec, hmem, hregs, hcc, hcache, hpc, hia, hran, htally⟩ :=
    exec_st hr (stAccess_caseA s r1 d2 x2 hb) hrange
  obtain ⟨h0, h1, h2, h3⟩ := readByte_of_mem_eq_wordBytes hm hrange hmem
  refine ⟨t, _, hexec, fun hx => if_pos hx, fun hx => ?_, h0, h1, h2, h3, memoryKeptOutside_of_mem_eq hmem, hcache,
    hregs, hcc, hpc, hia, hran, htally⟩
  rw [if_neg hx, rxEa, Nat.add_comm x2.toNat]

/-- Settles O30: case (b) of `stAccess`; its displacement is too small to advance the IA by 4095. -/
theorem stCaseBStoresAtDisplacement : Obligations.StCaseBStoresAtDisplacement := by
  unfold Obligations.StCaseBStoresAtDisplacement
  intro r1 d2 s hr hm ha
  have hrange : d2.toNat + 4 ≤ memSize := Nat.add_le_add_right ha 4
  obtain ⟨t, hexec, hmem, hregs, hcc, hcache, hpc, hia, hran, htally⟩ :=
    exec_st hr (stAccess_caseB s r1 d2) hrange
  obtain ⟨h0, h1, h2, h3⟩ := readByte_of_mem_eq_wordBytes hm hrange hmem
  rw [if_neg (by omega)] at hia
  exact ⟨t, hexec, h0, h1, h2, h3, memoryKeptOutside_of_mem_eq hmem, hcache, hregs, hcc, hpc, hia, hran, htally⟩

/-- Settles O31: case (c) of `stAccess`, one byte, the address cut to its low 8 bits. -/
theorem stCaseCStoresAddressByte : Obligations.StCaseCStoresAddressByte := by
  unfold Obligations.StCaseCStoresAddressByte
  intro r1 x2 d2 s hr hm hx ha
  have hrange : (s.reg x2).toNat + 1 ≤ memSize := Nat.add_le_add_right ha 1
  obtain ⟨t, hexec, hmem, hregs, hcc, hcache, hpc, hia, hran, htally⟩ :=
    exec_st hr (stAccess_caseC s r1 d2 hx) hrange
  have hbyte := readByte_of_mem_eq_byte hm hrange hmem
  exact ⟨t, hexec, by rw [hbyte, toNat_trunc8], memoryKeptOutside_of_mem_eq hmem, hcache, hregs, hcc, hpc, hia, hran,
    htally⟩

/-- Settles O32: each case of `stAccess` fails the check of its own range. -/
theorem stOutOfRangeFaults : Obligations.StOutOfRangeFaults := by
  unfold Obligations.StOutOfRangeFaults
  intro r1 x2 b2 d2 s
  refine ⟨fun hb ha => ?caseA, fun hb hx ha => ?caseB, fun hb hx ha => ?caseC⟩
  case caseA =>
    exact exec_outOfRange (State.dataRange_st (stAccess_caseA s r1 d2 x2 hb)) (Nat.add_lt_add_right ha 4)
  case caseB =>
    subst hb hx
    exact exec_outOfRange (State.dataRange_st (stAccess_caseB s r1 d2)) (Nat.add_lt_add_right ha 4)
  case caseC =>
    subst hb
    exact exec_outOfRange (State.dataRange_st (stAccess_caseC s r1 d2 hx)) (Nat.add_lt_add_right ha 1)

/-- Settles O33: L's one ending, in range, writes R1 with the word at the effective address. -/
theorem lLoadsBigEndianWord : Obligations.LLoadsBigEndianWord := by
  unfold Obligations.LLoadsBigEndianWord
  rintro r1 x2 b2 d2 s a hr rfl ha
  obtain ⟨u, hran, hexec, hframe⟩ :=
    exec_dataAccess (i := .l r1 x2 b2 d2) hr rfl rfl rfl rfl (Nat.add_le_add_right ha 4)
  cases hran
  exact ⟨fun _ => rfl, _, hexec, by simp [State.readWord, wordOfBytes, rxEa],
    fun q hq => by simp [State.reg_setReg_other, hq], by simp, fun q => by simp, hframe⟩

/-- Settles O34: C's one ending, in range, writes the condition code only. -/
theorem cComparesWithMemoryWord : Obligations.CComparesWithMemoryWord := by
  unfold Obligations.CComparesWithMemoryWord
  rintro r1 x2 b2 d2 s a w hr rfl ha hw
  have hword : s.readWord (rxEa x2 b2 d2) = w := hw.symm
  obtain ⟨u, hran, hexec, hframe⟩ :=
    exec_dataAccess (i := .c r1 x2 b2 d2) hr rfl rfl rfl rfl (Nat.add_le_add_right ha 4)
  cases hran
  exact ⟨fun _ => rfl, _, hexec, by simp [cmp3, hword], fun q => by simp, fun q => by simp, hframe⟩

/-- Settles O35: L and C check the same range, four bytes at the raw sum. -/
theorem loadOutOfRangeFaults : Obligations.LoadOutOfRangeFaults := by
  unfold Obligations.LoadOutOfRangeFaults
  intro r1 x2 b2 d2 s ha
  have hrange : memSize < rxEa x2 b2 d2 + 4 := Nat.add_lt_add_right ha 4
  exact ⟨exec_outOfRange rfl hrange, exec_outOfRange rfl hrange⟩

end Sys2Proof.Machine
end

section
/-!
PROOFS. HALT (spec/44_halt.md R190, R191): its cycle has one ending, which the zero cell reaches as well.
-/

namespace Sys2Proof.Machine

/-- HALT's cycle is decode's advance and the stop; in the terminal status no trace follows. -/
theorem exec_halt (ignored : Nibble) (s : State) :
    exec (.halt ignored) s = .next (s.decodeAdvance (.instr (.halt ignored))).stopHalted := by
  have hcycle : exec (.halt ignored) s = .next (s.decodeAdvance (.instr (.halt ignored))).stopHalted.endCycle :=
    runCycle_ok (h := handleHalt ignored) rfl
  exact hcycle.trans (congrArg _ (State.endCycle_terminal _ (by simp)))

/-- Settles O36: the stop writes the halt flag and the status, and decode's advance over the halt form is 1 for the
PC and 0 for the IA. -/
theorem haltStopsTheRun : Obligations.HaltStopsTheRun := by
  unfold Obligations.HaltStopsTheRun
  intro h s
  have hpc : (s.decodeAdvance (.instr (.halt h))).stopHalted.pc = s.pc + 1 := rfl
  have hia : (s.decodeAdvance (.instr (.halt h))).stopHalted.ia = s.ia := rfl
  exact ⟨fun _ => rfl, _, exec_halt h s, rfl, rfl, rfl, hpc, hia, rfl, rfl, rfl, State.reg_congr _ rfl, rfl,
    State.readByte_congr _ rfl, rfl⟩

/-- Settles O17: the cell's byte is of the halt class, so the cycle is that of a HALT. -/
theorem zeroCellHalts : Obligations.ZeroCellHalts := by
  unfold Obligations.ZeroCellHalts
  intro om s hr hpc hzero
  have hfetch := s.fetchDecode_halt om hpc (by rw [hzero]; rfl)
  obtain ⟨-, t, hexec, hhalted, hstatus, -, hnext, -, -, -, -, hregs, hcc, hmem, hcache⟩ :=
    haltStopsTheRun (lo4 (s.readByte s.pc)) s
  exact ⟨t, (cycle_instr hr hfetch).trans hexec, hstatus, hhalted, hnext, hregs, hcc, hmem, hcache⟩

end Sys2Proof.Machine
end

section
/-!
PROOFS. The two model faults (spec/60_exceptions.md R200, R203): a fetch fails exactly where the bytes that its opcode
byte asks for pass the end of memory, at the first offset beyond it, and no other ending of a cycle is a fault.
-/

namespace Sys2Proof

/-- The byte that decoding misses is the one after the last of the list (R94). -/
theorem decode_error_eq {om : OpMap} {bytes : List Byte} {e : DecodeError} (h : decode om bytes = .error e) :
    e = .missingByte bytes.length := by
  cases bytes with
  | nil =>
    rw [decode_nil] at h
    exact (Except.error.inj h).symm
  | cons op tail =>
    obtain ⟨-, hlong, hshort⟩ := decodeFailsOnlyOnMissingByte om op tail
    obtain hlen | hlen := Nat.lt_or_ge (op :: tail).length
      (if op.toNat / 16 = 0 then 1 else if op.toNat / 16 = 1 then 2 else 4)
    · rw [hshort hlen] at h
      exact (Except.error.inj h).symm
    · obtain ⟨d, hd⟩ := hlong hlen
      rw [hd] at h
      cases h

end Sys2Proof

namespace Sys2Proof.Machine

variable {om : OpMap} {s u : State} {i : Instr} {f : Fault}

/-- The one fault of a fetch names the first offset from the PC on that lies beyond memory (R200). -/
theorem State.fetchDecode_error_eq (h : s.fetchDecode om = .error f) : f = .fetchOutOfRange (max s.pc 4096) := by
  obtain ⟨a, rfl, hbeyond, hlow, -⟩ := State.fetchDecode_error h
  rw [s.fetchDecode_eq_decode] at h
  cases hdecode : decode om s.bytesAtPc with
  | ok d =>
    rw [hdecode] at h
    cases h
  | error e =>
    rw [hdecode, decode_error_eq hdecode, s.bytesAtPc_length] at h
    have ha : s.pc + min 4 (4096 - s.pc) = a := Fault.fetchOutOfRange.inj (Except.error.inj h)
    have hmax : a = max s.pc 4096 := by
      unfold memSize at hbeyond
      omega
    rw [hmax]

/-- A running cycle whose bytes, by the class of the byte at the PC, pass the end of memory takes the fault (R86,
R200). -/
theorem cycle_fetchBeyond (hr : s.status = .running)
    (hend : 4096 < s.pc + (if (s.readByte s.pc).toNat / 16 = 0 then 1
      else if (s.readByte s.pc).toNat / 16 = 1 then 2 else 4)) :
    cycle om s = .next (s.takeFault (.fetchOutOfRange (max s.pc 4096))) := by
  cases hfetch : s.fetchDecode om with
  | ok d =>
    rw [← State.length_of_fetchDecode hfetch] at hend
    exact absurd (State.fetchDecode_ok_end hfetch) (Nat.not_le.2 hend)
  | error f => rw [cycle_fetchFault hr hfetch, State.fetchDecode_error_eq hfetch]

/-- An instruction run to its end from a running state leaves no fault in the status. -/
theorem Ran.status_ne_fault (h : Ran s i u) (hr : s.status = .running) : u.status ≠ .fault f := by
  obtain ⟨hs, -⟩ | ⟨hs, -⟩ | ⟨hs, -⟩ := h.status_cases
  · rw [hs, hr]; nofun
  · rw [hs]; nofun
  · rw [hs]; nofun

/-- Settles O14: of the endings that `cycle_cases` lists, only a fault taken at the cycle's start leaves a fault in
the status. -/
theorem modelFaultUndoesCycle : Obligations.ModelFaultUndoesCycle := by
  unfold Obligations.ModelFaultUndoesCycle
  intro om s t f hr hcycle hfault
  obtain ⟨hterm, -⟩ | ⟨g, -, rfl⟩ | ⟨i, u, -, -, hran, rfl⟩ | ⟨d, -, -, -, rfl⟩ := cycle_cases hcycle
  · exact absurd hr hterm
  · cases hfault
    rfl
  · rw [u.endCycle_status] at hfault
    exact absurd hfault (hran.status_ne_fault hr)
  · rw [State.endCycle_status, State.decodeAdvance_status, hr] at hfault
    cases hfault

/-- Settles O15: `cycle_fetchBeyond` in each clause, where the first missing offset is the PC itself or 4096. -/
theorem fetchBeyondMemoryFaults : Obligations.FetchBeyondMemoryFaults := by
  unfold Obligations.FetchBeyondMemoryFaults
  intro om s hr
  refine ⟨fun hpc => ?pcBeyond, fun hpc hrr => ?rr, fun hlow hhigh hrx => ?rx⟩
  case pcBeyond =>
    have h := cycle_fetchBeyond (om := om) hr (by split_ifs <;> omega)
    rwa [Nat.max_eq_left hpc] at h
  case rr =>
    have h := cycle_fetchBeyond (om := om) hr (by rw [if_neg (by omega), if_pos hrr]; omega)
    rwa [Nat.max_eq_right (by omega)] at h
  case rx =>
    have h := cycle_fetchBeyond (om := om) hr (by rw [if_neg (by omega), if_neg (by omega)]; omega)
    rwa [Nat.max_eq_right (by omega)] at h

end Sys2Proof.Machine
end

section
/-!
PROOFS. The statements on reset (spec/70_reset_and_hazards.md): the values it leaves, read through the model's
accessors, and the invariants it meets.
-/

namespace Sys2Proof.Machine

/-! ### What the accessors read after reset (R230) -/

@[simp] theorem State.reg_reset (r : Nibble) : State.reset.reg r = 0#32 := Vector.getElem_replicate r.isLt

@[simp] theorem OpTally.get_zero (m : Op) : OpTally.zero.get m = 0 := by
  cases m <;> rfl

/-! ### The statements -/

/-- Settles O56: one lemma for each invariant, the same ones that placing an image carries over (O58). -/
theorem resetMeetsInvariants : Obligations.ResetMeetsInvariants :=
  ⟨State.reset_mem_wf, haltAgrees_reset, cacheOrdered_reset, tallyBalanced_reset, pcIaBounded_reset⟩

/-- Settles O57: the registers, bytes, lines and opcode tallies are each read by a lemma over every index; a field
that holds a single value has it by definition. -/
theorem resetState : Obligations.ResetState := by
  unfold Obligations.ResetState
  refine ⟨?registers, rfl, rfl, rfl, rfl, rfl, ?memory, ?lines, rfl, rfl, ?opTallies,
    rfl, rfl, rfl, rfl, rfl, rfl, rfl, rfl⟩
  case registers => exact State.reg_reset
  case memory => exact State.readByte_reset
  case lines => exact Cache.line_reset
  case opTallies => exact OpTally.get_zero

end Sys2Proof.Machine
end
